-- ==== Sys2Proof/Word.lean ====
section
/-! DEFINITION. The words of the block: field elements, command words, response words (R6, R7). -/

namespace Sys2Proof

/-- A field element or a stored table entry: 8 bits, bit i the coefficient of x^i (R7). -/
abbrev Byte := BitVec 8

/-- A command word CMD (R70). -/
abbrev CommandWord := BitVec 32

/-- A response word RSP (R83). -/
abbrev ResponseWord := BitVec 16

end Sys2Proof
end

