-- ==== Sys2Proof/Syntax.lean ====
section
/-! DEFINITION. The ten commands (R78), with the operands of R77 as fields. -/

namespace Sys2Proof

/-- One command with its operands. A field has the width its format gives it (R71-R77), so a field
value outside the format cannot be written down (U5, U7, U8). -/
inductive Instr where
  /-- R131: field addition. -/
  | add (a b : Byte)
  /-- R132: field subtraction. -/
  | sub (a b : Byte)
  /-- R133: field multiplication. -/
  | mul (a b : Byte)
  /-- R134: field division, `a` the dividend. -/
  | div (a b : Byte)
  /-- R135: `a` to the power `n`; `n` is an unsigned integer, not a field element. -/
  | pow (a n : Byte)
  /-- R136: multiplicative inverse. -/
  | inv (a : Byte)
  /-- R170: read one LOG entry. -/
  | logr (a : Byte)
  /-- R171: read one EXP entry. -/
  | expr (idx : BitVec 9)
  /-- R100: build the tables; `mt` asks for the multiplication table. -/
  | build (poly : Byte) (mt : Bool)
  /-- R172: read a control register. -/
  | csrr (sel : BitVec 2)
  deriving DecidableEq, Repr

/-- The names of the commands (R78). -/
inductive Mnemonic where
  | add | sub | mul | div | pow | inv | logr | expr | build | csrr
  deriving DecidableEq, Repr

/-- The command an instruction is of. -/
def Instr.mnemonic : Instr → Mnemonic
  | .add _ _ => .add
  | .sub _ _ => .sub
  | .mul _ _ => .mul
  | .div _ _ => .div
  | .pow _ _ => .pow
  | .inv _ => .inv
  | .logr _ => .logr
  | .expr _ => .expr
  | .build _ _ => .build
  | .csrr _ => .csrr

end Sys2Proof
end

