-- ==== Sys2Proof/WellFormed.lean ====
section
/-! DEFINITION. Which words are commands (the opcode map R78), and which numbers fit a field (R84).
A term of `Instr` needs no check of its own: its types carry the widths of R71-R77. -/

namespace Sys2Proof

/-- The column "needs BUILT" of R78. -/
inductive BuiltNeed where
  | no | yes | mustBeZero
  deriving DecidableEq, Repr

/-- One row of the opcode map R78. -/
structure OpcodeRow where
  mnemonic : Mnemonic
  /-- The column "match": the word with all operand fields 0. -/
  pattern : CommandWord
  /-- The column "mask": OP and the reserved bits. -/
  mask : CommandWord
  needs : BuiltNeed
  deriving DecidableEq, Repr

/-- The row of each command, as R78 lists it. -/
def opcodeRow : Mnemonic → OpcodeRow
  | .add => ⟨.add, 0x10000000#32, 0xFFFF0000#32, .no⟩
  | .sub => ⟨.sub, 0x20000000#32, 0xFFFF0000#32, .no⟩
  | .mul => ⟨.mul, 0x30000000#32, 0xFFFF0000#32, .yes⟩
  | .div => ⟨.div, 0x40000000#32, 0xFFFF0000#32, .yes⟩
  | .pow => ⟨.pow, 0x50000000#32, 0xFFFF0000#32, .yes⟩
  | .inv => ⟨.inv, 0x60000000#32, 0xFFFF00FF#32, .yes⟩
  | .logr => ⟨.logr, 0x70000000#32, 0xFFFF00FF#32, .yes⟩
  | .expr => ⟨.expr, 0x80000000#32, 0xFFFFFE00#32, .yes⟩
  | .build => ⟨.build, 0x90000000#32, 0xFFFEFF00#32, .mustBeZero⟩
  | .csrr => ⟨.csrr, 0xA0000000#32, 0xFFFFFFFC#32, .no⟩

/-- All rows of R78, in its order. -/
def opcodeTable : List OpcodeRow :=
  [Mnemonic.add, .sub, .mul, .div, .pow, .inv, .logr, .expr, .build, .csrr].map opcodeRow

/-- A word is the command of a row exactly when it agrees with the row under its mask (R78). -/
def OpcodeRow.covers (r : OpcodeRow) (w : CommandWord) : Bool := w &&& r.mask == r.pattern

/-- The word is some command (R80): its opcode is assigned and its reserved bits are 0. -/
def wellFormedWord (w : CommandWord) : Bool := opcodeTable.any (·.covers w)

/-- The number can stand in a field of that many bits (R84). -/
def fitsField (width n : Nat) : Bool := decide (n < 2 ^ width)

end Sys2Proof
end

