-- ==== Sys2Proof/Decode.lean ====
section
/-! DEFINITION. Decoding and encoding of command words (R70-R82), and their order over a byte-wide
link (R53). -/

namespace Sys2Proof

/-- OP = CMD[31:28] (R70). -/
def fieldOp (w : CommandWord) : BitVec 4 := w.extractLsb' 28 4

/-- A = CMD[15:8] (R72, R73). -/
def fieldA (w : CommandWord) : Byte := w.extractLsb' 8 8

/-- B = CMD[7:0] (R72). -/
def fieldB (w : CommandWord) : Byte := w.extractLsb' 0 8

/-- IDX = CMD[8:0] (R74). -/
def fieldIdx (w : CommandWord) : BitVec 9 := w.extractLsb' 0 9

/-- MT = CMD[16] (R75). -/
def fieldMt (w : CommandWord) : Bool := w.getLsbD 16

/-- POLY = CMD[7:0] (R75). -/
def fieldPoly (w : CommandWord) : Byte := w.extractLsb' 0 8

/-- SEL = CMD[1:0] (R76). -/
def fieldSel (w : CommandWord) : BitVec 2 := w.extractLsb' 0 2

/-- Format R: CMD[27:16] is 0 (R72). -/
def reservedR (w : CommandWord) : Bool := w.extractLsb' 16 12 == 0#12

/-- Format U: CMD[27:16] and CMD[7:0] are 0 (R73). -/
def reservedU (w : CommandWord) : Bool := w.extractLsb' 16 12 == 0#12 && w.extractLsb' 0 8 == 0#8

/-- Format X: CMD[27:9] is 0 (R74). -/
def reservedX (w : CommandWord) : Bool := w.extractLsb' 9 19 == 0#19

/-- Format C: CMD[27:17] and CMD[15:8] are 0 (R75). -/
def reservedC (w : CommandWord) : Bool := w.extractLsb' 17 11 == 0#11 && w.extractLsb' 8 8 == 0#8

/-- Format S: CMD[27:2] is 0 (R76). -/
def reservedS (w : CommandWord) : Bool := w.extractLsb' 2 26 == 0#26

/-- Why a word is no command. -/
inductive Illegal where
  /-- The opcode is 0x0 or 0xB-0xF (R79). -/
  | reservedOpcode (op : BitVec 4)
  /-- A reserved bit of the opcode's format is 1 (R80). -/
  | reservedBits (op : BitVec 4)
  deriving DecidableEq, Repr

/-- The instruction, if the format's reserved bits are 0 (R80). -/
def whenReservedZero (ok : Bool) (w : CommandWord) (i : Instr) : Except Illegal Instr :=
  if ok then .ok i else .error (.reservedBits (fieldOp w))

/-- Decoding is total (R81): every word is one command with its operands, or illegal. -/
def decode (w : CommandWord) : Except Illegal Instr :=
  match (fieldOp w).toNat with
  | 0x1 => whenReservedZero (reservedR w) w (.add (fieldA w) (fieldB w))
  | 0x2 => whenReservedZero (reservedR w) w (.sub (fieldA w) (fieldB w))
  | 0x3 => whenReservedZero (reservedR w) w (.mul (fieldA w) (fieldB w))
  | 0x4 => whenReservedZero (reservedR w) w (.div (fieldA w) (fieldB w))
  | 0x5 => whenReservedZero (reservedR w) w (.pow (fieldA w) (fieldB w))
  | 0x6 => whenReservedZero (reservedU w) w (.inv (fieldA w))
  | 0x7 => whenReservedZero (reservedU w) w (.logr (fieldA w))
  | 0x8 => whenReservedZero (reservedX w) w (.expr (fieldIdx w))
  | 0x9 => whenReservedZero (reservedC w) w (.build (fieldPoly w) (fieldMt w))
  | 0xA => whenReservedZero (reservedS w) w (.csrr (fieldSel w))
  | _ => .error (.reservedOpcode (fieldOp w))

/-- A word of format R (R72). -/
def formatR (op : BitVec 4) (a b : Byte) : CommandWord := op ++ 0#12 ++ a ++ b

/-- A word of format U (R73). -/
def formatU (op : BitVec 4) (a : Byte) : CommandWord := op ++ 0#12 ++ a ++ 0#8

/-- A word of format X (R74). -/
def formatX (op : BitVec 4) (idx : BitVec 9) : CommandWord := op ++ 0#19 ++ idx

/-- A word of format C (R75). -/
def formatC (op : BitVec 4) (mt : Bool) (poly : Byte) : CommandWord :=
  op ++ 0#11 ++ BitVec.ofBool mt ++ 0#8 ++ poly

/-- A word of format S (R76). -/
def formatS (op : BitVec 4) (sel : BitVec 2) : CommandWord := op ++ 0#26 ++ sel

/-- The command word of an instruction (R71-R78). -/
def encode : Instr → CommandWord
  | .add a b => formatR 0x1#4 a b
  | .sub a b => formatR 0x2#4 a b
  | .mul a b => formatR 0x3#4 a b
  | .div a b => formatR 0x4#4 a b
  | .pow a n => formatR 0x5#4 a n
  | .inv a => formatU 0x6#4 a
  | .logr a => formatU 0x7#4 a
  | .expr idx => formatX 0x8#4 idx
  | .build poly mt => formatC 0x9#4 mt poly
  | .csrr sel => formatS 0xA#4 sel

/-- The four bytes of a command word in the order a byte-wide link carries them (R53). -/
def bytesOfWord (w : CommandWord) : List Byte :=
  [w.extractLsb' 0 8, w.extractLsb' 8 8, w.extractLsb' 16 8, w.extractLsb' 24 8]

/-- The two bytes of a response word in the order a byte-wide link carries them (R53). -/
def bytesOfResponse (r : ResponseWord) : List Byte := [r.extractLsb' 0 8, r.extractLsb' 8 8]

/-- The command word whose bytes 0, 1, 2, 3 are given (R53). -/
def wordOfBytes (b0 b1 b2 b3 : Byte) : CommandWord := b3 ++ b2 ++ b1 ++ b0

/-- Decode the first command of a byte stream, and give the rest of the stream; nothing while fewer
than four bytes have arrived, since a command is 32 bits (R82, DESIGN CHOICE log 12). -/
def decodeBytes : List Byte → Option (Except Illegal Instr × List Byte)
  | b0 :: b1 :: b2 :: b3 :: rest => some (decode (wordOfBytes b0 b1 b2 b3), rest)
  | _ => none

/-- The 32-bit word of a number of `nbits` bits, the bits above `nbits` being 0. -/
def tableWord (nbits w : Nat) : CommandWord := BitVec.ofNat 32 (w % 2 ^ nbits)

/-- What the decoder reads from a table word. A command word moves in parallel (R53), so the word is
given to the decoder whole (DESIGN CHOICE log 12). -/
def decodeTableWord (nbits w : Nat) : Option Instr :=
  match decode (tableWord nbits w) with
  | .ok i => some i
  | .error _ => none

end Sys2Proof
end

