-- ==== Sys2Proof/Config.lean ====
section
/-! DEFINITION. The parameters of the block (R6) and the two open ones (R243). -/

namespace Sys2Proof.Config

/-- Multiplicative group order (R6). -/
abbrev groupOrder : Nat := 255

/-- Entries of the LOG table (R6, R50). -/
abbrev logEntries : Nat := 256

/-- Entries of the EXP table (R6, R50). -/
abbrev expEntries : Nat := 510

/-- Entries of the MTAB table (R6, R50). -/
abbrev mtabEntries : Nat := 65536

/-- Default polynomial, the reset value of PRIM[7:0] (R6, R23). -/
abbrev defaultPoly : Byte := 0x1D#8

/-- The stored form of the sentinel -1 (R51). -/
abbrev sentinel : Byte := 0xFF#8

/-- What LAT_CMD exceeds one step by (R243: an OPEN parameter). A free value, DESIGN CHOICE log 8. -/
opaque latCmdBeyondOne : Nat

/-- What LAT_BUILD exceeds one step by; it may depend on MT (R243). A free value, DESIGN CHOICE log 8. -/
opaque latBuildBeyondOne : Bool → Nat

/-- LAT_CMD: from accepting a command other than BUILD to its response, at least one step (R243). -/
def latCmd : Nat := latCmdBeyondOne + 1

/-- LAT_BUILD: the same for BUILD, for the operand MT (R243). -/
def latBuild (mt : Bool) : Nat := latBuildBeyondOne mt + 1

end Sys2Proof.Config
end

