-- ==== Sys2Proof/Machine/State.lean ====
section
/-! DEFINITION. The state of the block as plain data (R20-R31), what can stop the model, and the state
right after reset (R31). -/

namespace Sys2Proof.Machine

/-- The exceptions of R200. -/
inductive Exc where
  /-- 0x01, R202. -/
  | divByZero
  /-- 0x02, R203. -/
  | zeroOperand
  /-- 0x03, R204. -/
  | notBuilt
  /-- 0x04, R205. -/
  | alreadyBuilt
  /-- 0x05, R206. -/
  | nonPrimitive
  /-- 0x06, R207. -/
  | illegalCommand
  /-- 0x07, R208. -/
  | indexRange
  deriving DecidableEq, Repr

/-- A response (R83). An error response carries no data: its DATA byte has no meaning. -/
inductive Response where
  | ok (v : Byte)
  | err (e : Exc)
  deriving DecidableEq, Repr

/-- What the host does to the block: it presents a command word (R240) or asserts reset (R230). -/
inductive HostInput where
  | command (w : CommandWord)
  | reset
  deriving DecidableEq, Repr

/-- The three address spaces (R50). -/
inductive TableSpace where
  | log | exp | mtab
  deriving DecidableEq, Repr

/-- A table memory: the entries that have been written, as (index, stored byte) pairs with the indices
strictly rising. An index that is not listed holds no value the spec gives (R28), DESIGN CHOICE log 4. -/
abbrev Memory := List Host.Cell

/-- The state (R23-R29), with the host's side of the command port in `inputs` and `responses`. -/
structure State where
  /-- PRIM[7:0]; PRIM[8] is hardwired (R23, DEDUCED log 7). -/
  primLo : Byte
  /-- CTRL[0] (R24). -/
  built : Bool
  /-- CTRL[1] (R25). -/
  mode : Bool
  /-- STATUS (R26). -/
  status : Byte
  /-- ERRS[6:0]; ERRS[7] is hardwired (R27, DEDUCED log 7). -/
  errBits : BitVec 7
  /-- The LOG table (R28, R50, R51). -/
  log : Memory
  /-- The EXP table (R28, R50). -/
  exp : Memory
  /-- The MTAB table (R28, R50). -/
  mtab : Memory
  /-- The accepted command that has not responded yet; busy is set exactly while there is one
  (R29, DEDUCED log 1). -/
  inFlight : Option CommandWord
  /-- What the host still presents, in issue order (R30, R240); not the block's own state, DESIGN CHOICE log 2. -/
  inputs : List HostInput
  /-- The responses returned so far, oldest first (R57, R244); not the block's own state, DESIGN CHOICE log 3. -/
  responses : List Response
  deriving DecidableEq, Repr

/-- What stops the model. An exception of R200 is no fault of this type: the command that raises it
ends, and the block goes on (R213). -/
inductive Fault where
  /-- A command reads a table entry that has no value: nothing has written it since reset, or the table
  has no such index. The spec gives such a read no effect (R28: "unspecified and no command reads
  them"). Raised by mul, div, pow, inv, logr and expr, only in states with BUILT = 1 whose tables do
  not hold what BUILT = 1 means (R24). Safe, DESIGN CHOICE log 4. -/
  | unspecifiedEntry (space : TableSpace)
  /-- A command would calculate with the sentinel, which R10 says no rule does. Raised by mul, div, pow
  and inv, only in states with BUILT = 1 whose LOG table is not the one R24 describes. Safe, DEDUCED log 5. -/
  | sentinelArithmetic
  deriving DecidableEq, Repr

/-- Why an instruction has no meaning here. -/
inductive Refusal where
  /-- Said by `exec` of an instruction that has no meaning yet; no arm says it. Safe. -/
  | notModelled (mnemonic : String)
  deriving DecidableEq, Repr

/-- The state right after reset (R31): PRIM = 0x11D, BUILT = MODE = 0, STATUS = ERRS = 0, the tables
unspecified, no command in flight; the host has presented nothing and received nothing (DESIGN CHOICE log 2, DESIGN CHOICE log 3). -/
def State.reset : State where
  primLo := Config.defaultPoly
  built := false
  mode := false
  status := 0#8
  errBits := 0#7
  log := []
  exp := []
  mtab := []
  inFlight := none
  inputs := []
  responses := []

end Sys2Proof.Machine
end

