-- ==== Sys2Proof/Machine/Flags.lean ====
section
/-! DEFINITION. What commands write to STATUS and ERRS (R26, R27, R200, R201). The block has no
condition flags (R22). -/

namespace Sys2Proof.Machine

/-- The code of an exception, its STATUS value (R200). -/
def Exc.code : Exc → Byte
  | .divByZero => 0x01#8
  | .zeroOperand => 0x02#8
  | .notBuilt => 0x03#8
  | .alreadyBuilt => 0x04#8
  | .nonPrimitive => 0x05#8
  | .illegalCommand => 0x06#8
  | .indexRange => 0x07#8

/-- The STATUS value of a command that responded (R200). -/
def statusOk : Byte := 0x00#8

/-- The exception with code k sets ERRS[k-1] (R200). -/
def Exc.errBit (e : Exc) : BitVec 7 := 1#7 <<< (e.code.toNat - 1)

/-- ERRS[6:0] after a raise: the exception's bit is set and no bit is cleared (R27, R201). -/
def errsAfter (errBits : BitVec 7) (e : Exc) : BitVec 7 := errBits ||| e.errBit

/-- The status code of a response (R83). -/
def Response.statusCode : Response → Byte
  | .ok _ => statusOk
  | .err e => e.code

/-- RSP[15:8] is the status code, RSP[7:0] the data, 0x00 on an error (R83). -/
def Response.word : Response → ResponseWord
  | .ok v => statusOk ++ v
  | .err e => e.code ++ 0x00#8

end Sys2Proof.Machine
end

