-- ==== Sys2Proof/Machine/Operands.lean ====
section
/-! DEFINITION. From operand fields to the values the rules compute with (R77, R101), and the indices
of R50, R130 and R134-R136. Every index is exact (R8). -/

namespace Sys2Proof.Machine

/-- The entries of each space (R50). -/
def TableSpace.entries : TableSpace → Nat
  | .log => Config.logEntries
  | .exp => Config.expEntries
  | .mtab => Config.mtabEntries

/-- The LOG index of a field element (R50). -/
def logIndex (x : Byte) : Nat := x.toNat

/-- The MTAB index {a, b} = 256*a + b (R50). -/
def mtabIndex (a b : Byte) : Nat := 256 * a.toNat + b.toNat

/-- The EXP index an EXPR names (R77). -/
def exprIndex (idx : BitVec 9) : Nat := idx.toNat

/-- POW's exponent, an unsigned integer 0..255 (R77). -/
def powExponent (n : Byte) : Nat := n.toNat

/-- The reduction polynomial p = 0x100 | zext_9(POLY) (R101). -/
def polyOf (poly : Byte) : BitVec 9 := 0x100#9 ||| poly.setWidth 9

/-- A stored LOG entry as a logarithm: none for the sentinel, else the number itself (R10, R51). -/
def decodeLog (v : Byte) : Option Nat := if v = Config.sentinel then none else some v.toNat

/-- A logarithm, or the sentinel, as it is stored (R51). -/
def storeLog : Option Nat → Byte
  | none => Config.sentinel
  | some l => BitVec.ofNat 8 l

/-- The EXP index of a product (R130). -/
def mulIndex (la lb : Nat) : Nat := la + lb

/-- The EXP index of a quotient (R134); `lb` is at most 254, so nothing is cut off. -/
def divIndex (la lb : Nat) : Nat := la + Config.groupOrder - lb

/-- The EXP index of a power (R135). -/
def powIndex (la n : Nat) : Nat := la * n % Config.groupOrder

/-- The EXP index of an inverse (R136); `la` is at most 254, so nothing is cut off. -/
def invIndex (la : Nat) : Nat := Config.groupOrder - la

end Sys2Proof.Machine
end

