-- ==== Sys2Proof/Machine/Ops.lean ====
section
/-! DEFINITION. The shared operations: table memories (R9, R50), control registers with their hardwired
bits (R23-R29), the two ways a command ends (R9, R201), accepting a command (R240) and reset (R230).

There is no return from an exception: nothing is saved and nothing restored (R212, R213). -/

namespace Sys2Proof.Machine

/-! ## Table memories -/

/-- The indices of a memory are strictly rising, and every one is above the bound, if there is one. -/
def Memory.risingAbove : Option Nat → Memory → Bool
  | _, [] => true
  | none, (j, _) :: m => Memory.risingAbove (some j) m
  | some k, (j, _) :: m => decide (k < j) && Memory.risingAbove (some j) m

/-- The canonical form: indices strictly rising. An entry always differs from what an unlisted index
reads as, since that is no value at all. -/
def Memory.wf (m : Memory) : Bool := Memory.risingAbove none m

/-- Every index listed lies below the bound. -/
def Memory.below (n : Nat) (m : Memory) : Bool := m.all fun c => decide (c.1 < n)

/-- The memory of a space: canonical, with no entry outside the space (R50). -/
def Memory.wfIn (space : TableSpace) (m : Memory) : Bool := m.wf && m.below space.entries

/-- What an index that is not listed reads as: no value (R28, R31: "unspecified"), DESIGN CHOICE log 4. -/
def Memory.unlisted : Option Byte := none

/-- Read one entry (R9, R52). -/
def Memory.read : Memory → Nat → Option Byte
  | [], _ => Memory.unlisted
  | (j, v) :: m, i => if i = j then some v else Memory.read m i

/-- Write one entry (R9, R52), keeping the canonical form. -/
def Memory.write : Memory → Nat → Byte → Memory
  | [], i, v => [(i, v)]
  | (j, u) :: m, i, v =>
    if i < j then (i, v) :: (j, u) :: m
    else if i = j then (i, v) :: m
    else (j, u) :: Memory.write m i v

/-- The memory whose entries from index `k` on are the bytes given. -/
def Memory.ofBytesFrom : Nat → List Byte → Memory
  | _, [] => []
  | k, v :: vs => (k, v) :: Memory.ofBytesFrom (k + 1) vs

/-- The memory whose entries from index 0 on are the bytes given. -/
def Memory.ofBytes (vs : List Byte) : Memory := Memory.ofBytesFrom 0 vs

/-- Read an entry in a rule: an entry without a value stops the model (DESIGN CHOICE log 4). -/
def readEntry (space : TableSpace) (m : Memory) (i : Nat) : Except Fault Byte :=
  match m.read i with
  | some v => .ok v
  | none => .error (.unspecifiedEntry space)

/-- LOG[x] as a number for arithmetic (R10): the sentinel stops the model (DEDUCED log 5). -/
def readLogarithm (log : Memory) (x : Byte) : Except Fault Nat :=
  match readEntry .log log (logIndex x) with
  | .error f => .error f
  | .ok v =>
    match decodeLog v with
    | some l => .ok l
    | none => .error .sentinelArithmetic

/-! ## Control registers -/

/-- PRIM, 9 bits, PRIM[8] hardwired to 1 (R23, DEDUCED log 7). -/
def State.prim (s : State) : BitVec 9 := polyOf s.primLo

/-- CTRL = {0b000000, MODE, BUILT} (R24, R25, DEDUCED log 7). -/
def State.ctrl (s : State) : Byte := 0#6 ++ BitVec.ofBool s.mode ++ BitVec.ofBool s.built

/-- ERRS, 8 bits, ERRS[7] hardwired to 0 (R27, DEDUCED log 7). -/
def State.errs (s : State) : Byte := 0#1 ++ s.errBits

/-- busy, set while a command is executing (R29, DEDUCED log 1). -/
def State.busy (s : State) : Bool := s.inFlight.isSome

/-- The register CSRR reads for a select number (R172). -/
def State.readControl (s : State) (sel : BitVec 2) : Byte :=
  match sel.toNat with
  | 0 => s.prim.extractLsb' 0 8
  | 1 => s.ctrl
  | 2 => s.errs
  | _ => s.status

/-! ## How a command ends -/

/-- End the command with a response: STATUS <- 0x00, response ok(v), busy <- 0 (R9, R240). -/
def State.respond (s : State) (v : Byte) : State :=
  { s with status := statusOk, inFlight := none, responses := s.responses ++ [.ok v] }

/-- Taking an exception, the one way every exception is taken (R201): STATUS <- code(E),
ERRS[code(E) - 1] <- 1, response err(code(E)), the command ends (busy <- 0, R240). Nothing else. -/
def State.raise (s : State) (e : Exc) : State :=
  { s with
    status := e.code
    errBits := errsAfter s.errBits e
    inFlight := none
    responses := s.responses ++ [.err e] }

/-- The outcome of a command that responds with a value it read from the tables. -/
def answer (r : Except Fault Byte) (s : State) : Host.Outcome State Fault Refusal :=
  match r with
  | .ok v => .next (s.respond v)
  | .error f => .fault f

/-! ## The command port -/

/-- Accept the command presented: busy <- 1, and the host's next input comes up (R240). -/
def State.accept (s : State) (w : CommandWord) (rest : List HostInput) : State :=
  { s with inFlight := some w, inputs := rest }

/-- Reset is asserted (R230): every piece of the block's state goes to its value after reset (R31), and
a command in flight is abandoned without a response. What the host presents next and what it has
received are the host's and stay (DESIGN CHOICE log 6). -/
def State.assertReset (s : State) (rest : List HostInput) : State :=
  { State.reset with inputs := rest, responses := s.responses }

end Sys2Proof.Machine
end

