-- ==== Sys2Proof/Machine/TableGeneration.lean ====
section
/-! DEFINITION. Table generation (R100-R111): the step, the walk, the primitivity check, the three
tables, and BUILD. The log/exp product of R130 stands here because BUILD fills MTAB with it. -/

namespace Sys2Proof.Machine

/-- step_p(x): multiply by x^1 and reduce by p (R102). -/
def walkStep (p : BitVec 9) (x : Byte) : Byte :=
  let y : BitVec 9 := x.setWidth 9 <<< 1
  if y.getLsbD 8 then (y ^^^ p).setWidth 8 else y.setWidth 8

/-- `n` values of the walk, from `x` on. -/
def walkFrom (p : BitVec 9) : Nat → Byte → List Byte
  | 0, _ => []
  | n + 1, x => x :: walkFrom p n (walkStep p x)

/-- The walk s[0..255], s[0] = 1 (R103). The walk value lives here only (R29, DEDUCED log 13). -/
def walk (p : BitVec 9) : List Byte := walkFrom p 256 1#8

/-- s[i] is not 1 for i in 1..254, and s[255] = 1 (R108). -/
def isPrimitive (s : List Byte) : Bool :=
  ((s.drop 1).take 254).all (· != 1#8) && s[255]? == some 1#8

/-- LOG[x] <- i for the values x in order, i counting up (R104). -/
def writeLogs : Nat → List Byte → Memory → Memory
  | _, [], m => m
  | i, x :: xs, m => writeLogs (i + 1) xs (m.write (logIndex x) (storeLog (some i)))

/-- The LOG table of a walk (R104): first every entry the sentinel, then LOG[s[i]] <- i for i in 0..254. -/
def logTable (s : List Byte) : Memory :=
  writeLogs 0 (s.take 255) (Memory.ofBytes (List.replicate Config.logEntries (storeLog none)))

/-- The EXP table of a walk (R106): s[0..254], then the same 255 values again. -/
def expTable (s : List Byte) : Memory := Memory.ofBytes (s.take 255 ++ s.take 255)

/-- mul_log (R130). -/
def mulLog (log exp : Memory) (a b : Byte) : Except Fault Byte :=
  if a = 0#8 ∨ b = 0#8 then .ok 0x00#8
  else
    match readLogarithm log a, readLogarithm log b with
    | .ok la, .ok lb => readEntry .exp exp (mulIndex la lb)
    | .error f, _ => .error f
    | .ok _, .error f => .error f

/-- The entry MTAB holds at an index {a, b}, with its index (R109). -/
def mtabCell (log exp : Memory) (i : Nat) : Option Host.Cell :=
  match mulLog log exp (BitVec.ofNat 8 (i / 256)) (BitVec.ofNat 8 (i % 256)) with
  | .ok v => some (i, v)
  | .error _ => none

/-- The MTAB table over a LOG and an EXP table (R109): one entry for each pair (a, b), in rising index
order. A pair without a product, which no built LOG and EXP have, gets no value (DEDUCED log 9). -/
def mtabTable (log exp : Memory) : Memory :=
  (List.range' 0 Config.mtabEntries).filterMap (mtabCell log exp)

/-- The state once a walk has passed the check: the tables are written, then PRIM, MODE and BUILT
(R100, R104, R106, R109, R110). Without MT, MTAB is not written. -/
def State.commitTables (s : State) (poly : Byte) (mt : Bool) (w : List Byte) : State :=
  { s with
    log := logTable w
    exp := expTable w
    mtab := if mt then mtabTable (logTable w) (expTable w) else s.mtab
    primLo := poly
    mode := mt
    built := true }

/-- BUILD (R100). -/
def execBuild (poly : Byte) (mt : Bool) (s : State) : Host.Outcome State Fault Refusal :=
  if s.built then .next (s.raise .alreadyBuilt)
  else if isPrimitive (walk (polyOf poly)) then
    .next ((s.commitTables poly mt (walk (polyOf poly))).respond 0x00#8)
  else .next (s.raise .nonPrimitive)

end Sys2Proof.Machine
end

