-- ==== Sys2Proof/Machine/FieldArithmetic.lean ====
section
/-! DEFINITION. Field arithmetic: ADD, SUB, MUL, DIV, POW, INV (R131-R136). The checks stand in the
order R210 gives: block state, then the operands in the order of the command's pseudocode. -/

namespace Sys2Proof.Machine

/-- ADD (R131). -/
def execAdd (a b : Byte) (s : State) : Host.Outcome State Fault Refusal :=
  .next (s.respond (a ^^^ b))

/-- SUB (R132). -/
def execSub (a b : Byte) (s : State) : Host.Outcome State Fault Refusal :=
  .next (s.respond (a ^^^ b))

/-- MUL (R133): through MTAB when MODE = 1, else through LOG and EXP. -/
def execMul (a b : Byte) (s : State) : Host.Outcome State Fault Refusal :=
  if !s.built then .next (s.raise .notBuilt)
  else if s.mode then answer (readEntry .mtab s.mtab (mtabIndex a b)) s
  else answer (mulLog s.log s.exp a b) s

/-- EXP[LOG[a] + 255 - LOG[b]] (R134). -/
def divLog (log exp : Memory) (a b : Byte) : Except Fault Byte :=
  match readLogarithm log a, readLogarithm log b with
  | .ok la, .ok lb => readEntry .exp exp (divIndex la lb)
  | .error f, _ => .error f
  | .ok _, .error f => .error f

/-- DIV (R134): a zero dividend is found before a zero divisor. -/
def execDiv (a b : Byte) (s : State) : Host.Outcome State Fault Refusal :=
  if !s.built then .next (s.raise .notBuilt)
  else if a = 0#8 then .next (s.respond 0x00#8)
  else if b = 0#8 then .next (s.raise .divByZero)
  else answer (divLog s.log s.exp a b) s

/-- EXP[(LOG[a] * n) mod 255] (R135). -/
def powLog (log exp : Memory) (a n : Byte) : Except Fault Byte :=
  match readLogarithm log a with
  | .ok la => readEntry .exp exp (powIndex la (powExponent n))
  | .error f => .error f

/-- POW (R135): a zero base raises for every exponent, 0 among them. -/
def execPow (a n : Byte) (s : State) : Host.Outcome State Fault Refusal :=
  if !s.built then .next (s.raise .notBuilt)
  else if a = 0#8 then .next (s.raise .zeroOperand)
  else answer (powLog s.log s.exp a n) s

/-- EXP[255 - LOG[a]] (R136). -/
def invLog (log exp : Memory) (a : Byte) : Except Fault Byte :=
  match readLogarithm log a with
  | .ok la => readEntry .exp exp (invIndex la)
  | .error f => .error f

/-- INV (R136). -/
def execInv (a : Byte) (s : State) : Host.Outcome State Fault Refusal :=
  if !s.built then .next (s.raise .notBuilt)
  else if a = 0#8 then .next (s.raise .zeroOperand)
  else answer (invLog s.log s.exp a) s

end Sys2Proof.Machine
end

