-- ==== Sys2Proof/Machine/Observation.lean ====
section
/-! DEFINITION. Table and register reads: LOGR, EXPR, CSRR (R170-R172). -/

namespace Sys2Proof.Machine

/-- LOGR (R170): the stored byte, 0xFF for the sentinel. -/
def execLogr (a : Byte) (s : State) : Host.Outcome State Fault Refusal :=
  if !s.built then .next (s.raise .notBuilt)
  else answer (readEntry .log s.log (logIndex a)) s

/-- EXPR (R171). -/
def execExpr (idx : BitVec 9) (s : State) : Host.Outcome State Fault Refusal :=
  if !s.built then .next (s.raise .notBuilt)
  else if 509 < exprIndex idx then .next (s.raise .indexRange)
  else answer (readEntry .exp s.exp (exprIndex idx)) s

/-- CSRR (R172): STATUS is read before this command writes it. -/
def execCsrr (sel : BitVec 2) (s : State) : Host.Outcome State Fault Refusal :=
  .next (s.respond (s.readControl sel))

end Sys2Proof.Machine
end

