-- ==== Sys2Proof/Machine/Dispatch.lean ====
section
/-! DEFINITION. The meaning of each command, one arm per constructor of Instr. -/

namespace Sys2Proof.Machine

/-- Execute an accepted command. -/
def exec (i : Instr) (s : State) : Host.Outcome State Fault Refusal :=
  match i with
  | .add a b => Sys2Proof.Machine.execAdd a b s
  | .sub a b => Sys2Proof.Machine.execSub a b s
  | .mul a b => Sys2Proof.Machine.execMul a b s
  | .div a b => Sys2Proof.Machine.execDiv a b s
  | .pow a n => Sys2Proof.Machine.execPow a n s
  | .inv a => Sys2Proof.Machine.execInv a s
  | .logr a => Sys2Proof.Machine.execLogr a s
  | .expr idx => Sys2Proof.Machine.execExpr idx s
  | .build poly mt => Sys2Proof.Machine.execBuild poly mt s
  | .csrr sel => Sys2Proof.Machine.execCsrr sel s

end Sys2Proof.Machine
end

