-- ==== Sys2Proof/Machine/Issue.lean ====
section
/-! DEFINITION. What the block does with the host's inputs (R57, R79-R81, R230, R240, R244), and the
latency of a command (R243). `step` calls `advance` and nothing else. -/

namespace Sys2Proof.Machine

/-- Execute an accepted word (R81): the command it decodes to, or ILLEGAL_COMMAND (R79, R80, R207),
which comes before every other check (R210). -/
def executeWord (w : CommandWord) (s : State) : Host.Outcome State Fault Refusal :=
  match decode w with
  | .ok i => exec i s
  | .error _ => .next (s.raise .illegalCommand)

/-- One transition. Reset, when asserted, comes first, whether a command is in flight or not (R230,
DESIGN CHOICE log 6). A command in flight is executed to its response, and what the host presents is held (R240).
An idle block accepts the command presented and executes it in the same transition (R240, DEDUCED log 1), and
waits when nothing is presented (R220). -/
def advance (s : State) : Host.Outcome State Fault Refusal :=
  match s.inputs, s.inFlight with
  | .reset :: rest, _ => .next (s.assertReset rest)
  | .command _ :: _, some w => executeWord w s
  | [], some w => executeWord w s
  | .command w :: rest, none => executeWord w (s.accept w rest)
  | [], none => .next s

/-- The host presents a word to an idle block, before anything else it has to present. -/
def State.present (s : State) (w : CommandWord) : State :=
  { s with inFlight := none, inputs := .command w :: s.inputs }

/-- A program (R244): the words the host issues, one after another, each as an input. -/
def programInputs (ws : List CommandWord) : List HostInput := ws.map .command

/-- The steps from accepting a command to its response (R243); no rule depends on it, DESIGN CHOICE log 8. -/
def latency : Instr → Nat
  | .build _ mt => Config.latBuild mt
  | .add _ _ | .sub _ _ | .mul _ _ | .div _ _ | .pow _ _ | .inv _ | .logr _ | .expr _ | .csrr _ =>
    Config.latCmd

end Sys2Proof.Machine
end

