-- ==== Sys2Proof/Machine/Step.lean ====
section
/-! DEFINITION. One step of the block, and how a word is put where the next step takes it from. -/

namespace Sys2Proof.Machine

/-- One step: one accepted command, one assertion of reset, or idling (R230, R240). -/
def step (s : State) : Host.Outcome State Fault Refusal := advance s

/-- The state whose very next step accepts and executes the table word: the block fetches nothing
(R21), so the word stands at the head of what the host presents (DESIGN CHOICE log 11). -/
def State.withFetchWord (s : State) (nbits w : Nat) : State := s.present (tableWord nbits w)

end Sys2Proof.Machine
end

