-- ==== Sys2Proof/Machine/Assembler.lean ====
section
/-! DEFINITION. The assembler of R84 and R85: from a line of text, as a list of characters, to the
command word the host issues. It stands outside the block. -/

namespace Sys2Proof.Machine

/-- The mnemonics an assembler line may begin with (R84), and the pseudo-instructions with a mnemonic of
their own (R85). The pseudo-instructions `build` and `build poly` share the mnemonic `build`. -/
inductive AsmOp where
  | add | sub | mul | div | pow | inv | logr | expr | build | csrr | sqr | word
  deriving DecidableEq, Repr

/-- An operand: a number, or a register name that only CSRR takes (R84). -/
inductive AsmOperand where
  | num (n : Nat)
  | reg (sel : BitVec 2)
  deriving DecidableEq, Repr

/-- Why a line is no command. -/
inductive AsmError where
  | unknownMnemonic
  | badOperand
  /-- Too many or too few operands, or a register name where a number belongs. -/
  | wrongOperands
  /-- The operand does not fit its field: an error, not a truncation (R84). -/
  | operandTooWide
  deriving DecidableEq, Repr

/-- A number in a field of `width` bits (R84). -/
def asmField (width n : Nat) : Except AsmError (BitVec width) :=
  if fitsField width n then .ok (BitVec.ofNat width n) else .error .operandTooWide

/-- A command of two 8-bit operands. -/
def asmPair (mk : Byte → Byte → Instr) (a b : Nat) : Except AsmError CommandWord :=
  match asmField 8 a, asmField 8 b with
  | .ok x, .ok y => .ok (encode (mk x y))
  | .error e, _ => .error e
  | .ok _, .error e => .error e

/-- A command of one operand of `width` bits. -/
def asmOne (width : Nat) (mk : BitVec width → Instr) (a : Nat) : Except AsmError CommandWord :=
  match asmField width a with
  | .ok x => .ok (encode (mk x))
  | .error e => .error e

/-- BUILD with POLY and MT (R84). -/
def asmBuild (poly mt : Nat) : Except AsmError CommandWord :=
  match asmField 8 poly, asmField 1 mt with
  | .ok p, .ok m => .ok (encode (.build p (m.getLsbD 0)))
  | .error e, _ => .error e
  | .ok _, .error e => .error e

/-- The word of a mnemonic with its operands: the commands of R84 and the pseudo-instructions of R85. -/
def assembleOp : AsmOp → List AsmOperand → Except AsmError CommandWord
  | .add, [.num a, .num b] => asmPair .add a b
  | .sub, [.num a, .num b] => asmPair .sub a b
  | .mul, [.num a, .num b] => asmPair .mul a b
  | .div, [.num a, .num b] => asmPair .div a b
  | .pow, [.num a, .num n] => asmPair .pow a n
  | .inv, [.num a] => asmOne 8 .inv a
  | .logr, [.num a] => asmOne 8 .logr a
  | .expr, [.num i] => asmOne 9 .expr i
  | .build, [.num p, .num m] => asmBuild p m
  | .build, [.num p] => asmBuild p 0
  | .build, [] => asmBuild 0x1d 0
  | .csrr, [.num sel] => asmOne 2 .csrr sel
  | .csrr, [.reg sel] => .ok (encode (.csrr sel))
  | .sqr, [.num a] => asmPair .mul a a
  | .word, [.num w] => asmField 32 w
  | _, _ => .error .wrongOperands

/-- The mnemonic and operands that R84 writes an instruction with. -/
def sourceOf : Instr → AsmOp × List AsmOperand
  | .add a b => (.add, [.num a.toNat, .num b.toNat])
  | .sub a b => (.sub, [.num a.toNat, .num b.toNat])
  | .mul a b => (.mul, [.num a.toNat, .num b.toNat])
  | .div a b => (.div, [.num a.toNat, .num b.toNat])
  | .pow a n => (.pow, [.num a.toNat, .num n.toNat])
  | .inv a => (.inv, [.num a.toNat])
  | .logr a => (.logr, [.num a.toNat])
  | .expr idx => (.expr, [.num idx.toNat])
  | .build poly mt => (.build, [.num poly.toNat, .num mt.toNat])
  | .csrr sel => (.csrr, [.num sel.toNat])

/-! ## Text -/

/-- The characters that separate (DESIGN CHOICE log 10). -/
def asmBlank (c : Char) : Bool := c == ' ' || c == '\t' || c == '\r'

/-- A text without the blanks at its two ends. -/
def asmTrim (cs : List Char) : List Char :=
  ((cs.dropWhile asmBlank).reverse.dropWhile asmBlank).reverse

/-- The pieces of a text between the separators. -/
def asmSplit (sep : Char) : List Char → List (List Char)
  | [] => [[]]
  | c :: cs =>
    match asmSplit sep cs with
    | [] => [[c]]
    | p :: ps => if c == sep then [] :: p :: ps else (c :: p) :: ps

/-- A digit in a base of at most 16 (DESIGN CHOICE log 10: hexadecimal letters of either case). -/
def asmDigit (base : Nat) (c : Char) : Option Nat :=
  let n := c.toNat
  let d := if 48 ≤ n ∧ n ≤ 57 then some (n - 48)
    else if 97 ≤ n ∧ n ≤ 102 then some (n - 87)
    else if 65 ≤ n ∧ n ≤ 70 then some (n - 55)
    else none
  match d with
  | some v => if v < base then some v else none
  | none => none

/-- The number that digits write, `acc` being what the digits before them write. -/
def asmDigits (base : Nat) : Nat → List Char → Option Nat
  | acc, [] => some acc
  | acc, c :: cs =>
    match asmDigit base c with
    | some d => asmDigits base (acc * base + d) cs
    | none => none

/-- A number: hexadecimal after 0x, else decimal (R84). -/
def asmNumber : List Char → Option Nat
  | [] => none
  | ['0', 'x'] => none
  | '0' :: 'x' :: ds => asmDigits 16 0 ds
  | ds => asmDigits 10 0 ds

/-- An operand: a register name of R84, or a number. -/
def asmOperand (cs : List Char) : Except AsmError AsmOperand :=
  if cs = ['p', 'r', 'i', 'm'] then .ok (.reg 0#2)
  else if cs = ['c', 't', 'r', 'l'] then .ok (.reg 1#2)
  else if cs = ['e', 'r', 'r', 's'] then .ok (.reg 2#2)
  else if cs = ['s', 't', 'a', 't', 'u', 's'] then .ok (.reg 3#2)
  else
    match asmNumber cs with
    | some n => .ok (.num n)
    | none => .error .badOperand

/-- A mnemonic, in lower case (R84). -/
def asmMnemonic (cs : List Char) : Except AsmError AsmOp :=
  if cs = ['a', 'd', 'd'] then .ok .add
  else if cs = ['s', 'u', 'b'] then .ok .sub
  else if cs = ['m', 'u', 'l'] then .ok .mul
  else if cs = ['d', 'i', 'v'] then .ok .div
  else if cs = ['p', 'o', 'w'] then .ok .pow
  else if cs = ['i', 'n', 'v'] then .ok .inv
  else if cs = ['l', 'o', 'g', 'r'] then .ok .logr
  else if cs = ['e', 'x', 'p', 'r'] then .ok .expr
  else if cs = ['b', 'u', 'i', 'l', 'd'] then .ok .build
  else if cs = ['c', 's', 'r', 'r'] then .ok .csrr
  else if cs = ['s', 'q', 'r'] then .ok .sqr
  else if cs = ['.', 'w', 'o', 'r', 'd'] then .ok .word
  else .error .unknownMnemonic

/-- The operands between the commas; a line may have none. -/
def asmOperands (cs : List Char) : Except AsmError (List AsmOperand) :=
  if asmTrim cs = [] then .ok []
  else (asmSplit ',' cs).mapM fun p => asmOperand (asmTrim p)

/-- The word of one line (R84): what follows a `;` is a comment, and a line with nothing else has no
word (DESIGN CHOICE log 10). -/
def assembleLine (line : List Char) : Except AsmError (Option CommandWord) :=
  match asmTrim (line.takeWhile (· != ';')) with
  | [] => .ok none
  | body =>
    match asmMnemonic (body.takeWhile (!asmBlank ·)), asmOperands (body.dropWhile (!asmBlank ·)) with
    | .ok op, .ok operands => (assembleOp op operands).map some
    | .error e, _ => .error e
    | .ok _, .error e => .error e

/-- The words of a program text, one command a line (R84, R244). -/
def assemble (text : List Char) : Except AsmError (List CommandWord) :=
  match (asmSplit '\n' text).mapM assembleLine with
  | .ok words => .ok (words.filterMap id)
  | .error e => .error e

end Sys2Proof.Machine
end

