-- ==== Sys2Proof/Machine/Reference.lean ====
section
/-! DEFINITION. The carry-less product of R114, an independent check of the tables. No command computes
through it. -/

namespace Sys2Proof.Machine

/-- The product of a and b in GF(2)[x], 15 bits (R114, its first loop). -/
def carrylessProduct (a b : Byte) : BitVec 15 :=
  (List.range 8).foldl (fun r i => if b.getLsbD i then r ^^^ (a.setWidth 15 <<< i) else r) 0#15

/-- The remainder modulo p, from bit 14 down to bit 8 (R114, its second loop). -/
def reduceBy (p : BitVec 9) (r : BitVec 15) : BitVec 15 :=
  [14, 13, 12, 11, 10, 9, 8].foldl
    (fun r k => if r.getLsbD k then r ^^^ (p.setWidth 15 <<< (k - 8)) else r) r

/-- clmul_p(a, b) (R114). -/
def clmul (p : BitVec 9) (a b : Byte) : Byte := (reduceBy p (carrylessProduct a b)).setWidth 8

end Sys2Proof.Machine
end

