-- ==== Sys2Proof/Safety.lean ====
section
/-! DEFINITION. What the statements speak of: the two ways a command ends, with everything it leaves
alone; what BUILT = 1 means (R24); the invariant of the block; runs. -/

namespace Sys2Proof.Machine

/-- Executing `i` answers ok(v): STATUS <- 0x00, one response, the block is idle again, and NOTHING else
of the state has changed (R9, R55, R240). -/
def Responds (i : Instr) (s : State) (v : Byte) : Prop :=
  exec i s = .next
    { s with status := 0x00#8, inFlight := none, responses := s.responses ++ [.ok v] }

/-- Executing `i` raises `e`: STATUS <- code(e), ERRS[code(e) - 1] <- 1, one response err(code(e)), the
block is idle again, and NOTHING else of the state has changed (R201). -/
def Raises (i : Instr) (s : State) (e : Exc) : Prop :=
  exec i s = .next
    { s with
      status := e.code
      errBits := s.errBits ||| (1#7 <<< (e.code.toNat - 1))
      inFlight := none
      responses := s.responses ++ [.err e] }

/-- Executing the word `w` raises ILLEGAL_COMMAND (R79, R80, R207): STATUS <- 0x06, ERRS[5] <- 1, one
response err(0x06), the block is idle again, and NOTHING else of the state has changed (R201). -/
def RaisesIllegal (w : CommandWord) (s : State) : Prop :=
  executeWord w s = .next
    { s with
      status := 0x06#8
      errBits := s.errBits ||| 0x20#7
      inFlight := none
      responses := s.responses ++ [.err .illegalCommand] }

/-- The element s[i] of the walk of p (R103): the i-th power of x. -/
def power (p : BitVec 9) : Nat → Byte
  | 0 => 1#8
  | i + 1 => walkStep p (power p i)

/-- What BUILT = 1 means (R24): PRIM is primitive and the tables hold what R104, R106 and (MODE = 1)
R109 give for it. -/
structure TablesHold (s : State) : Prop where
  primitive : isPrimitive (walk s.prim) = true
  log : s.log = logTable (walk s.prim)
  exp : s.exp = expTable (walk s.prim)
  mtab : s.mode = true → s.mtab = mtabTable s.log s.exp

/-- The invariant every step keeps: the memories are canonical with no entry outside
their spaces (R50), STATUS is a legal value (R26) and a code
in it is recorded in ERRS (R201), PRIM is the default until BUILD (R23), MODE is set only with BUILT
(R25), and BUILT = 1 has its meaning (R24). -/
structure StateInv (s : State) : Prop where
  logCanonical : s.log.wfIn .log = true
  expCanonical : s.exp.wfIn .exp = true
  mtabCanonical : s.mtab.wfIn .mtab = true
  statusLegal : s.status.toNat ≤ 7
  statusRecorded : s.status ≠ 0#8 → s.errs.getLsbD (s.status.toNat - 1) = true
  primUnbuilt : s.built = false → s.primLo = 0x1D#8
  modeBuilt : s.mode = true → s.built = true
  tablesBuilt : s.built = true → TablesHold s

/-- A state in which the data commands run: the invariant, and BUILD has completed (R232). -/
structure Ready (s : State) : Prop where
  inv : StateInv s
  built : s.built = true

/-- STATUS is the status code of the last response returned, if there is one (R26). -/
def StatusIsLast (s : State) : Prop :=
  ∀ r, s.responses.getLast? = some r → s.status = r.word.extractLsb' 8 8

/-- The state is one right after reset in which the host presents `ws`: at power-on, or after a step in
which the host asserted reset (R230). -/
def JustReset (ws : List CommandWord) (u : State) : Prop :=
  u = { State.reset with inputs := programInputs ws } ∨
  ∃ s rest, s.inputs = .reset :: rest ∧ step s = .next u ∧ u.inputs = programInputs ws

/-- LOG has no number for the element `x`, and the fault that says why (log 4, log 5). -/
def NoLogarithm (log : Memory) (x : Byte) (f : Fault) : Prop :=
  (log.read x.toNat = none ∧ f = .unspecifiedEntry .log) ∨
  (log.read x.toNat = some 0xFF#8 ∧ f = .sentinelArithmetic)

/-- LOG has the number `l` for the element `x`. -/
def HasLogarithm (log : Memory) (x : Byte) (l : Nat) : Prop :=
  ∃ v : Byte, log.read x.toNat = some v ∧ v ≠ 0xFF#8 ∧ v.toNat = l

/-- The state after `n` steps, if none of them stops. -/
def run : Nat → State → Host.Outcome State Fault Refusal
  | 0, s => .next s
  | n + 1, s =>
    match step s with
    | .next t => run n t
    | .fault f => .fault f
    | .refused r => .refused r

/-- The exceptions each command can raise besides ILLEGAL_COMMAND (R209). -/
def mayRaise : Mnemonic → List Exc
  | .add | .sub | .csrr => []
  | .mul | .logr => [.notBuilt]
  | .div => [.notBuilt, .divByZero]
  | .pow | .inv => [.notBuilt, .zeroOperand]
  | .expr => [.notBuilt, .indexRange]
  | .build => [.alreadyBuilt, .nonPrimitive]

/-- ERRS[6:0] as a list of responses leaves it, starting from given bits (R27). -/
def errsOf (bits : BitVec 7) : List Response → BitVec 7
  | [] => bits
  | .ok _ :: rs => errsOf bits rs
  | .err e :: rs => errsOf (bits ||| (1#7 <<< (e.code.toNat - 1))) rs

end Sys2Proof.Machine
end

