-- ==== Sys2Proof/Certificates/Slice0/Obligations.lean ====
section
/-! DEFINITION. The statements for the provers, from the spec's numbered rules. `Responds` and `Raises`
(Sys2Proof/Safety.lean) each say that exec ANSWERS a next state, which one, and with it the whole frame:
every field that is not named keeps its value. -/

open Sys2Proof Sys2Proof.Machine

/-! ## Encoding -/

/-- R70-R78, R81: decoding the word of an instruction gives the instruction back, every operand at every
value. -/
def Obligations.DecodeOfEncodeIsTheInstruction : Prop :=
  ∀ i : Instr, decode (encode i) = .ok i

/-- R81: a word that decodes to an instruction is that instruction's word, so no bit of it is dropped. -/
def Obligations.EncodeOfDecodeIsTheWord : Prop :=
  ∀ (w : CommandWord) (i : Instr), decode w = .ok i → encode i = w

/-- R78: a word is the command of a row exactly when it agrees with the row under its mask; a row that
needs BUILT raises NOT_BUILT without it, BUILD raises ALREADY_BUILT with it, and the rest respond in
every state. -/
def Obligations.OpcodeMapRowsDecideTheCommand : Prop :=
  (∀ (m : Mnemonic) (w : CommandWord),
    w &&& (opcodeRow m).mask = (opcodeRow m).pattern ↔ ∃ i, decode w = .ok i ∧ i.mnemonic = m) ∧
  (∀ (i : Instr) (s : State), (opcodeRow i.mnemonic).needs = .yes → s.built = false →
    Raises i s .notBuilt) ∧
  (∀ (i : Instr) (s : State), (opcodeRow i.mnemonic).needs = .mustBeZero → s.built = true →
    Raises i s .alreadyBuilt) ∧
  (∀ (i : Instr) (s : State), (opcodeRow i.mnemonic).needs = .no → ∃ v, Responds i s v)

/-- R81: every word is illegal or exactly one command, and at most one row covers it. -/
def Obligations.EveryWordIsOneCommandOrIllegal : Prop :=
  ∀ w : CommandWord,
    (∀ m n : Mnemonic, (opcodeRow m).covers w = true → (opcodeRow n).covers w = true → m = n) ∧
    ((∃ why, decode w = .error why) ↔ ∀ m : Mnemonic, (opcodeRow m).covers w = false)

/-- R70-R78: a few words, written out from the formats, decode to the commands they stand for. A sanity
statement. -/
def Obligations.WrittenWordsDecode : Prop :=
  decode 0x100053CA#32 = .ok (.add 0x53#8 0xCA#8) ∧
  decode 0x60000200#32 = .ok (.inv 0x02#8) ∧
  decode 0x800001FD#32 = .ok (.expr 509#9) ∧
  decode 0x9001001D#32 = .ok (.build 0x1D#8 true) ∧
  decode 0xA0000003#32 = .ok (.csrr 3#2) ∧
  (∃ why, decode 0x30100307#32 = .error why)

/-- R53: over a byte-wide link byte 0 is bits 7:0, then bits 15:8, and so on, for commands and for
responses. -/
def Obligations.ByteLinkIsLittleEndian : Prop :=
  (∀ (w : CommandWord) (rest : List Byte),
    decodeBytes (bytesOfWord w ++ rest) = some (decode w, rest)) ∧
  (∀ (w : CommandWord) (k : Nat), k < 4 → (bytesOfWord w)[k]? = some (w.extractLsb' (8 * k) 8)) ∧
  (∀ (r : ResponseWord) (k : Nat), k < 2 → (bytesOfResponse r)[k]? = some (r.extractLsb' (8 * k) 8))

/-! ## The command port -/

/-- R240: an idle block accepts the word presented, whatever word it is, and executes it in the same
step; the rest of what the host presents stays. A word that decodes to an instruction runs as that
instruction. -/
def Obligations.StepRunsThePresentedCommand : Prop :=
  ∀ (s : State) (w : CommandWord) (rest : List HostInput),
    s.inFlight = none → s.inputs = .command w :: rest →
    step s = executeWord w { s with inFlight := some w, inputs := rest } ∧
    ∀ i, decode w = .ok i → step s = exec i { s with inFlight := some w, inputs := rest }

/-- R240: while a word is in flight, whatever word it is, the block executes that one; the command
presented is held, and the response lifts the hold. -/
def Obligations.BusyBlockHoldsThePresentedCommand : Prop :=
  ∀ (s : State) (w : CommandWord), s.inFlight = some w → s.inputs.head? ≠ some .reset →
    step s = executeWord w s ∧
    (∀ i, decode w = .ok i → step s = exec i s) ∧
    ∀ t, step s = .next t → t.inputs = s.inputs ∧ t.inFlight = none

/-- R220: while idle the block waits for a command. -/
def Obligations.IdleBlockWaits : Prop :=
  ∀ s : State, s.inFlight = none → s.inputs = [] → step s = .next s

/-- R79, R207: a presented word with a reserved opcode, or with a reserved bit of its opcode's format set,
changes no state except STATUS and ERRS, and raises ILLEGAL_COMMAND. -/
def Obligations.ReservedOpcodeRaisesIllegalCommand : Prop :=
  ∀ (s : State) (w : CommandWord) (rest : List HostInput),
    s.inFlight = none → s.inputs = .command w :: rest →
    ((w.extractLsb' 28 4).toNat = 0 ∨ 0xB ≤ (w.extractLsb' 28 4).toNat ∨
      ∃ m, w &&& 0xF0000000#32 = (opcodeRow m).pattern ∧
        w &&& (opcodeRow m).mask ≠ (opcodeRow m).pattern) →
    step s = .next
      { s with
        status := 0x06#8
        errBits := s.errBits ||| 0x20#7
        inputs := rest
        responses := s.responses ++ [.err .illegalCommand] }

/-- R80, R207, R210: ILLEGAL_COMMAND is raised for a reserved opcode and for a reserved bit of an
assigned opcode's format, in every state and before every other check; any other word is a command, and
that command does not raise it. -/
def Obligations.IllegalCommandExactlyForReservedEncodings : Prop :=
  ∀ w : CommandWord,
    (((∀ m, w &&& 0xF0000000#32 ≠ (opcodeRow m).pattern) ∨
      (∃ m, w &&& 0xF0000000#32 = (opcodeRow m).pattern ∧
        w &&& (opcodeRow m).mask ≠ (opcodeRow m).pattern)) →
      ∀ s : State, RaisesIllegal w s) ∧
    ((∃ m, w &&& 0xF0000000#32 = (opcodeRow m).pattern ∧
        w &&& (opcodeRow m).mask = (opcodeRow m).pattern) →
      ∃ i, decode w = .ok i ∧ ∀ s : State, executeWord w s = exec i s ∧
        ∀ t, exec i s = .next t → t.responses ≠ s.responses ++ [.err .illegalCommand])

/-- R83: every command, an illegal word too, produces exactly one response word; its upper byte is the
new STATUS, its lower byte the result, and 0x00 when the status is not 0x00. -/
def Obligations.EveryCommandGivesOneResponse : Prop :=
  ∀ (w : CommandWord) (s t : State), executeWord w s = .next t →
    ∃ r : Response,
      t.responses = s.responses ++ [r] ∧
      r.word.extractLsb' 8 8 = t.status ∧
      (∀ v, r = .ok v → t.status = 0x00#8 ∧ r.word.extractLsb' 0 8 = v) ∧
      (∀ e, r = .err e → t.status = e.code ∧ r.word.extractLsb' 0 8 = 0x00#8)

/-! ## Reset -/

/-- R31: the registers right after reset. -/
def Obligations.ResetRegisters : Prop :=
  State.reset.prim = 0x11D#9 ∧ State.reset.built = false ∧ State.reset.mode = false ∧
  State.reset.ctrl = 0x00#8 ∧ State.reset.status = 0x00#8 ∧ State.reset.errs = 0x00#8 ∧
  State.reset.busy = false

/-- R230, R231: reset may be asserted in every state, with a command in flight or without; the registers
go to their reset values, the command in flight gives no response, and the block is idle. -/
def Obligations.AssertedResetAbandonsEverything : Prop :=
  ∀ (s : State) (rest : List HostInput), s.inputs = .reset :: rest →
    ∃ t, step s = .next t ∧ t.prim = 0x11D#9 ∧ t.built = false ∧ t.mode = false ∧
      t.ctrl = 0x00#8 ∧ t.status = 0x00#8 ∧ t.errs = 0x00#8 ∧ t.busy = false ∧
      t.responses = s.responses ∧ t.inputs = rest ∧
      ∀ (a : Byte), Raises (.logr a) t .notBuilt

/-! ## Invariants and whole-machine rules -/

/-- The invariant holds right after reset. -/
def Obligations.InvariantHoldsAfterReset : Prop := StateInv State.reset

/-- R23-R27, R32: every step keeps the invariant: canonical memories, legal STATUS recorded in ERRS,
PRIM at its default until BUILD, MODE only with BUILT, and tables that hold what BUILT = 1 means. -/
def Obligations.EveryStepKeepsTheInvariant : Prop :=
  ∀ s t : State, StateInv s → step s = .next t → StateInv t

/-- R24, R137, R213: from a state that meets the invariant no step ever stops: whatever the host does,
whatever word it presents, the block goes on. -/
def Obligations.NoStepStops : Prop := ∀ s : State, StateInv s → ∃ t, step s = .next t

/-- R32: only BUILD writes the tables, PRIM, BUILT and MODE, and only when BUILT = 0; so once BUILT = 1
no step but an assertion of reset changes them. -/
def Obligations.OnlyBuildWritesTheTables : Prop :=
  (∀ (i : Instr) (s t : State), i.mnemonic ≠ .build ∨ s.built = true → exec i s = .next t →
    t.log = s.log ∧ t.exp = s.exp ∧ t.mtab = s.mtab ∧ t.prim = s.prim ∧ t.built = s.built ∧
    t.mode = s.mode) ∧
  (∀ s t : State, s.built = true → s.inputs.head? ≠ some .reset → step s = .next t →
    t.log = s.log ∧ t.exp = s.exp ∧ t.mtab = s.mtab ∧ t.prim = s.prim ∧ t.built = s.built ∧
    t.mode = s.mode)

/-- R62: with the tables built, executing any command j first does not change the response of a command
i that is neither BUILD nor a register read. -/
def Obligations.DataResponsesDoNotDependOnOrder : Prop :=
  ∀ (i j : Instr) (s t : State), Ready s → i.mnemonic ≠ .build → i.mnemonic ≠ .csrr →
    exec j s = .next t →
    ∃ u v r, exec i s = .next u ∧ exec i t = .next v ∧
      u.responses = s.responses ++ [r] ∧ v.responses = t.responses ++ [r]

/-- R213: no step but an assertion of reset clears a bit of ERRS. -/
def Obligations.ErrsOnlyGrow : Prop :=
  ∀ s t : State, s.inputs.head? ≠ some .reset → step s = .next t →
    ∀ k, s.errs.getLsbD k = true → t.errs.getLsbD k = true

/-- R201: a command whose response is an exception has written STATUS and one bit of ERRS and nothing
else, for every command and every illegal word; RSP is {code, 0x00}. -/
def Obligations.RaisingWritesStatusAndErrsOnly : Prop :=
  ∀ (w : CommandWord) (s t : State) (e : Exc),
    executeWord w s = .next t → t.responses = s.responses ++ [.err e] →
    t = { s with
          status := e.code
          errBits := s.errBits ||| (1#7 <<< (e.code.toNat - 1))
          inFlight := none
          responses := s.responses ++ [.err e] } ∧
      (Response.err e).word = e.code ++ 0x00#8

/-- R209: the exceptions each command can raise are those of its row, and each of them can be raised. -/
def Obligations.EachCommandRaisesItsOwnExceptions : Prop :=
  (∀ (i : Instr) (s t : State) (e : Exc),
    exec i s = .next t → t.responses = s.responses ++ [.err e] → e ∈ mayRaise i.mnemonic) ∧
  (∀ (m : Mnemonic) (e : Exc), e ∈ mayRaise m → ∃ i s, i.mnemonic = m ∧ Raises i s e) ∧
  (∀ m : Mnemonic, ∃ w : CommandWord,
    w &&& 0xF0000000#32 = (opcodeRow m).pattern ∧ ∀ s : State, ∃ t, executeWord w s = .next t ∧
      t.responses = s.responses ++ [.err .illegalCommand])

/-- R200: the codes of the exceptions; exception k sets ERRS[k-1]. -/
def Obligations.ExceptionCodes : Prop :=
  Exc.divByZero.code = 0x01#8 ∧ Exc.zeroOperand.code = 0x02#8 ∧ Exc.notBuilt.code = 0x03#8 ∧
  Exc.alreadyBuilt.code = 0x04#8 ∧ Exc.nonPrimitive.code = 0x05#8 ∧
  Exc.illegalCommand.code = 0x06#8 ∧ Exc.indexRange.code = 0x07#8 ∧
  ∀ (e : Exc) (s : State), (s.raise e).errs.getLsbD (e.code.toNat - 1) = true

/-- R57, R244: a program of n command words, issued to an idle block that meets the invariant, ends
after n steps with n responses. They are in issue order: the k-th is the response of executing the k-th
word in the state after k steps, the words after it still presented. -/
def Obligations.ProgramsRunToTheirEnd : Prop :=
  ∀ (s : State) (ws : List CommandWord),
    StateInv s → s.inFlight = none → s.inputs = programInputs ws →
    ∃ t rs, run ws.length s = .next t ∧ t.inputs = [] ∧ t.busy = false ∧ StateInv t ∧
      t.responses = s.responses ++ rs ∧ rs.length = ws.length ∧
      ∀ k w, ws[k]? = some w → ∃ u v r,
        run k s = .next u ∧ u.busy = false ∧ u.inputs = programInputs (ws.drop k) ∧
        executeWord w { u with inFlight := some w, inputs := programInputs (ws.drop (k + 1)) } =
          .next v ∧
        run (k + 1) s = .next v ∧ v.responses = u.responses ++ [r] ∧ rs[k]? = some r

/-- R26: every step but an assertion of reset keeps that STATUS is the code of the last response, and a
step that returns a response leaves its code; so after a program from reset STATUS is the code of its
last response, a legal value, and 0x00 for the empty program. CSRR SEL 3 reads the STATUS from before it
completes. -/
def Obligations.StatusIsTheLastResponsesCode : Prop :=
  (∀ s t : State, StatusIsLast s → s.inputs.head? ≠ some .reset → step s = .next t →
    StatusIsLast t) ∧
  (∀ s t : State, s.inputs.head? ≠ some .reset → step s = .next t →
    t = s ∨ ∃ r, t.responses = s.responses ++ [r] ∧ t.status = r.word.extractLsb' 8 8) ∧
  (∀ (ws : List CommandWord) (u t : State), JustReset ws u → run ws.length u = .next t →
    t.status.toNat ≤ 7 ∧
    (ws = [] → t.status = 0x00#8) ∧
    ∃ rs, t.responses = u.responses ++ rs ∧
      ∀ r, rs.getLast? = some r → t.status = r.word.extractLsb' 8 8) ∧
  (∀ s : State, Responds (.csrr 3#2) s s.status)

/-- R27: a step that is no assertion of reset appends responses, and a bit of ERRS is set after it exactly
if it was set before or its exception is among them. So after a program, run from power-on or from the
state an assertion of reset leaves, ERRS[k-1] is 1 exactly when a command has raised the exception with
code k since that reset. ERRS[7] is 0 in every state; reset clears ERRS. Responses are counted from the
state after the reset on, so nothing rests on what the list of log 3 holds before (log 6). -/
def Obligations.ErrsRecordExactlyTheRaisedExceptions : Prop :=
  (∀ s t : State, s.inputs.head? ≠ some .reset → step s = .next t →
    ∃ rs, t.responses = s.responses ++ rs ∧
      ∀ e : Exc, t.errs.getLsbD (e.code.toNat - 1) = true ↔
        s.errs.getLsbD (e.code.toNat - 1) = true ∨ .err e ∈ rs) ∧
  (∀ (ws : List CommandWord) (u t : State), JustReset ws u → run ws.length u = .next t →
    ∃ rs, t.responses = u.responses ++ rs ∧
      ∀ e : Exc, t.errs.getLsbD (e.code.toNat - 1) = true ↔ .err e ∈ rs) ∧
  (∀ (s t : State) (rest : List HostInput), s.inputs = .reset :: rest → step s = .next t →
    t.errs = 0x00#8) ∧
  State.reset.errs = 0x00#8 ∧
  ∀ s : State, s.errs.getLsbD 7 = false

/-! ## Addition, subtraction, register reads -/

/-- R131, R132: ADD and SUB respond with A xor B in every state, built or not, and write STATUS only.
A reserved bit of the format set raises ILLEGAL_COMMAND. -/
def Obligations.AddAndSubRespondWithXor : Prop :=
  (∀ w : CommandWord, w.extractLsb' 28 4 = 0x1#4 ∨ w.extractLsb' 28 4 = 0x2#4 →
    w.extractLsb' 16 12 ≠ 0#12 → ∀ s : State, RaisesIllegal w s) ∧
  (∀ a b : Byte,
     decode (0x1#4 ++ 0#12 ++ a ++ b) = .ok (.add a b) ∧
     decode (0x2#4 ++ 0#12 ++ a ++ b) = .ok (.sub a b) ∧
     ∀ s : State, Responds (.add a b) s (a ^^^ b) ∧ Responds (.sub a b) s (a ^^^ b))

/-- R172: CSRR responds with PRIM[7:0], CTRL, ERRS or the STATUS from before it, in every state, and
clears nothing.
A reserved bit of the format set raises ILLEGAL_COMMAND. -/
def Obligations.CsrrReadsTheControlRegisters : Prop :=
  (∀ w : CommandWord, w.extractLsb' 28 4 = 0xA#4 → w.extractLsb' 2 26 ≠ 0#26 →
    ∀ s : State, RaisesIllegal w s) ∧
  (∀ sel : BitVec 2, decode (0xA#4 ++ 0#26 ++ sel) = .ok (.csrr sel)) ∧
  ∀ s : State,
    Responds (.csrr 0#2) s (s.prim.extractLsb' 0 8) ∧
    Responds (.csrr 1#2) s (0#6 ++ BitVec.ofBool s.mode ++ BitVec.ofBool s.built) ∧
    Responds (.csrr 2#2) s s.errs ∧
    Responds (.csrr 3#2) s s.status

/-! ## Table generation -/

/-- R102: the step doubles the element and, at bit 8, reduces it by the polynomial. -/
def Obligations.WalkStepDoublesAndReduces : Prop :=
  ∀ (p : BitVec 9) (x : Byte), p.getLsbD 8 = true →
    (walkStep p x).toNat = if 256 ≤ 2 * x.toNat then (2 * x.toNat) ^^^ p.toNat else 2 * x.toNat

/-- R108: the primitivity check says what the rule says; a walk that passes it visits every nonzero
element exactly once; exactly the 16 listed polynomials pass. -/
def Obligations.PrimitiveWalkVisitsEveryElementOnce : Prop :=
  ∀ poly : Byte,
    (isPrimitive (walk (polyOf poly)) = true ↔
      (∀ i, 1 ≤ i → i ≤ 254 → power (polyOf poly) i ≠ 1#8) ∧ power (polyOf poly) 255 = 1#8) ∧
    (isPrimitive (walk (polyOf poly)) = true →
      (∀ i j, i < 255 → j < 255 → power (polyOf poly) i = power (polyOf poly) j → i = j) ∧
      (∀ x : Byte, x ≠ 0#8 ↔ ∃ i, i < 255 ∧ power (polyOf poly) i = x)) ∧
    (isPrimitive (walk (polyOf poly)) = true ↔
      poly.toNat ∈ [0x1D, 0x2B, 0x2D, 0x4D, 0x5F, 0x63, 0x65, 0x69, 0x71, 0x87, 0x8D, 0xA9, 0xC3,
        0xCF, 0xE7, 0xF5])

/-- R100, R101, R104, R106, R109, R110: BUILD with a primitive POLY while BUILT = 0 completes. It fills
LOG and EXP from the walk and, with MT = 1, MTAB with the log/exp products of those two tables; without
MT it leaves MTAB alone. It writes PRIM, MODE, BUILT and STATUS, responds ok(0x00), and leaves ERRS and
the rest as they were. -/
def Obligations.BuildFillsTheTables : Prop :=
  ∀ (poly : Byte) (mt : Bool),
    decode (0x9#4 ++ 0#11 ++ BitVec.ofBool mt ++ 0#8 ++ poly) = .ok (.build poly mt) ∧
    ∀ s : State, s.built = false → isPrimitive (walk (0x100#9 ||| poly.setWidth 9)) = true →
      ∃ t, exec (.build poly mt) s = .next t ∧
        t.prim = 0x100#9 ||| poly.setWidth 9 ∧ t.mode = mt ∧ t.built = true ∧
        t.status = 0x00#8 ∧ t.errs = s.errs ∧ t.responses = s.responses ++ [.ok 0x00#8] ∧
        t.inFlight = none ∧ t.inputs = s.inputs ∧
        t.log.read 0 = some 0xFF#8 ∧
        (∀ i, i < 255 → t.log.read (power t.prim i).toNat = some (BitVec.ofNat 8 i)) ∧
        (∀ i, i < 255 → t.exp.read i = some (power t.prim i) ∧
          t.exp.read (255 + i) = some (power t.prim i)) ∧
        (∀ i, 256 ≤ i → t.log.read i = none) ∧ (∀ i, 510 ≤ i → t.exp.read i = none) ∧
        (mt = true → ∀ a b : Byte, ∃ v, mulLog t.log t.exp a b = .ok v ∧
          t.mtab.read (256 * a.toNat + b.toNat) = some v) ∧
        (mt = true → ∀ i, 65536 ≤ i → t.mtab.read i = none) ∧
        (mt = false → t.mtab = s.mtab)

/-- R205, R206, R111: BUILD raises ALREADY_BUILT while BUILT = 1, whatever its operands; while BUILT = 0
it raises NON_PRIMITIVE for every POLY but the 16 of R108, and completes for those. On an exception
nothing but STATUS and ERRS changes. -/
def Obligations.BuildRaisesAlreadyBuiltOrNonPrimitive : Prop :=
  ∀ (poly : Byte) (mt : Bool) (s : State),
    (s.built = true → Raises (.build poly mt) s .alreadyBuilt) ∧
    (s.built = false →
      poly.toNat ∉ [0x1D, 0x2B, 0x2D, 0x4D, 0x5F, 0x63, 0x65, 0x69, 0x71, 0x87, 0x8D, 0xA9, 0xC3,
        0xCF, 0xE7, 0xF5] →
      Raises (.build poly mt) s .nonPrimitive) ∧
    (s.built = false →
      poly.toNat ∈ [0x1D, 0x2B, 0x2D, 0x4D, 0x5F, 0x63, 0x65, 0x69, 0x71, 0x87, 0x8D, 0xA9, 0xC3,
        0xCF, 0xE7, 0xF5] →
      ∃ t, exec (.build poly mt) s = .next t ∧ t.built = true ∧ t.primLo = poly)

/-- R105: while BUILT = 1, LOG[0] is the sentinel, and LOG on 1..255 is a bijection onto 0..254, inverse
to the walk. -/
def Obligations.LogTableIsABijection : Prop :=
  ∀ s : State, Ready s →
    s.log.read 0 = some 0xFF#8 ∧
    (∀ x : Byte, x ≠ 0#8 → ∃ l, s.log.read x.toNat = some l ∧ l.toNat ≤ 254 ∧
      power s.prim l.toNat = x) ∧
    (∀ i, i ≤ 254 → s.log.read (power s.prim i).toNat = some (BitVec.ofNat 8 i)) ∧
    (∀ x y : Byte, x ≠ 0#8 → y ≠ 0#8 → s.log.read x.toNat = s.log.read y.toNat → x = y)

/-- R107, R56: while BUILT = 1, EXP[i] is the power i mod 255 for every i in 0..509, never 0, and the
upper half repeats the lower. -/
def Obligations.ExpTableHoldsThePowers : Prop :=
  ∀ s : State, Ready s →
    (∀ i, i ≤ 509 → s.exp.read i = some (power s.prim (i % 255)) ∧
      power s.prim (i % 255) ≠ 0#8 ∧ s.exp.read i = s.exp.read (i % 255)) ∧
    s.exp.read 0 = some 1#8 ∧ s.exp.read 255 = some 1#8 ∧
    s.exp.read 1 = some 2#8 ∧ s.exp.read 256 = some 2#8

/-- R113: the document's invariants of the tables while BUILT = 1. -/
def Obligations.TablesInvertEachOther : Prop :=
  ∀ s : State, Ready s →
    (∀ x : Byte, x ≠ 0#8 → ∃ l, s.log.read x.toNat = some l ∧ s.exp.read l.toNat = some x) ∧
    (∀ i, i ≤ 509 → ∃ x, s.exp.read i = some x ∧
      s.log.read x.toNat = some (BitVec.ofNat 8 (i % 255))) ∧
    s.log.read 0 = some 0xFF#8 ∧
    (s.mode = true → ∀ a b : Byte, ∃ v, mulLog s.log s.exp a b = .ok v ∧
      s.mtab.read (256 * a.toNat + b.toNat) = some v)

/-! ## Multiplication, division, powers, inverses -/

/-- R130, R133: MUL raises NOT_BUILT while BUILT = 0. While BUILT = 1 it responds with MTAB[A][B] when
MODE = 1; when MODE = 0, with 0 for a zero operand and with EXP[LOG[A] + LOG[B]] otherwise.
A reserved bit of the format set raises ILLEGAL_COMMAND. -/
def Obligations.MulRespondsFromTheTables : Prop :=
  (∀ w : CommandWord, w.extractLsb' 28 4 = 0x3#4 → w.extractLsb' 16 12 ≠ 0#12 →
    ∀ s : State, RaisesIllegal w s) ∧
  (∀ a b : Byte,
     decode (0x3#4 ++ 0#12 ++ a ++ b) = .ok (.mul a b) ∧
     ∀ s : State,
       (s.built = false → Raises (.mul a b) s .notBuilt) ∧
       (Ready s → s.mode = true → ∃ v, s.mtab.read (256 * a.toNat + b.toNat) = some v ∧
         Responds (.mul a b) s v) ∧
       (Ready s → s.mode = false → a = 0#8 ∨ b = 0#8 → Responds (.mul a b) s 0x00#8) ∧
       (Ready s → s.mode = false → a ≠ 0#8 → b ≠ 0#8 →
         ∃ la lb v, s.log.read a.toNat = some la ∧ s.log.read b.toNat = some lb ∧
           s.exp.read (la.toNat + lb.toNat) = some v ∧ Responds (.mul a b) s v))

/-- R114: while BUILT = 1 mul_log gives the carry-less product reduced modulo PRIM, and so does MUL in
both modes. -/
def Obligations.MulIsTheReducedCarrylessProduct : Prop :=
  ∀ (s : State) (a b : Byte), Ready s →
    mulLog s.log s.exp a b = .ok (clmul s.prim a b) ∧ Responds (.mul a b) s (clmul s.prim a b)

/-- R138: for the same PRIM, MUL responds with the same value in MODE = 1 and in MODE = 0. -/
def Obligations.MultiplyPathsAgree : Prop :=
  ∀ (s t : State) (a b : Byte), Ready s → Ready t → s.prim = t.prim → s.mode = true →
    t.mode = false → ∃ v, Responds (.mul a b) s v ∧ Responds (.mul a b) t v

/-- R134: DIV raises NOT_BUILT while BUILT = 0. While BUILT = 1 it responds 0 for a zero dividend, 0/0
too; raises DIV_BY_ZERO for a zero divisor of a nonzero dividend; and otherwise responds with
EXP[LOG[A] + 255 - LOG[B]].
A reserved bit of the format set raises ILLEGAL_COMMAND. -/
def Obligations.DivRespondsOrRaises : Prop :=
  (∀ w : CommandWord, w.extractLsb' 28 4 = 0x4#4 → w.extractLsb' 16 12 ≠ 0#12 →
    ∀ s : State, RaisesIllegal w s) ∧
  (∀ a b : Byte,
     decode (0x4#4 ++ 0#12 ++ a ++ b) = .ok (.div a b) ∧
     ∀ s : State,
       (s.built = false → Raises (.div a b) s .notBuilt) ∧
       (s.built = true → a = 0#8 → Responds (.div a b) s 0x00#8) ∧
       (s.built = true → a ≠ 0#8 → b = 0#8 → Raises (.div a b) s .divByZero) ∧
       (Ready s → a ≠ 0#8 → b ≠ 0#8 →
         ∃ la lb v, s.log.read a.toNat = some la ∧ s.log.read b.toNat = some lb ∧
           s.exp.read (la.toNat + 255 - lb.toNat) = some v ∧ Responds (.div a b) s v))

/-- R135: POW raises NOT_BUILT while BUILT = 0. While BUILT = 1 it raises ZERO_OPERAND for A = 0 and every
n, 0 too, and otherwise responds with EXP[(LOG[A] * n) mod 255].
A reserved bit of the format set raises ILLEGAL_COMMAND. -/
def Obligations.PowRespondsOrRaises : Prop :=
  (∀ w : CommandWord, w.extractLsb' 28 4 = 0x5#4 → w.extractLsb' 16 12 ≠ 0#12 →
    ∀ s : State, RaisesIllegal w s) ∧
  (∀ a n : Byte,
     decode (0x5#4 ++ 0#12 ++ a ++ n) = .ok (.pow a n) ∧
     ∀ s : State,
       (s.built = false → Raises (.pow a n) s .notBuilt) ∧
       (s.built = true → a = 0#8 → Raises (.pow a n) s .zeroOperand) ∧
       (Ready s → a ≠ 0#8 → ∃ la v, s.log.read a.toNat = some la ∧
         s.exp.read (la.toNat * n.toNat % 255) = some v ∧ Responds (.pow a n) s v))

/-- R136: INV raises NOT_BUILT while BUILT = 0. While BUILT = 1 it raises ZERO_OPERAND for A = 0, and
otherwise responds with EXP[255 - LOG[A]].
A reserved bit of the format set raises ILLEGAL_COMMAND. -/
def Obligations.InvRespondsOrRaises : Prop :=
  (∀ w : CommandWord, w.extractLsb' 28 4 = 0x6#4 →
    w.extractLsb' 16 12 ≠ 0#12 ∨ w.extractLsb' 0 8 ≠ 0#8 → ∀ s : State, RaisesIllegal w s) ∧
  (∀ a : Byte,
     decode (0x6#4 ++ 0#12 ++ a ++ 0#8) = .ok (.inv a) ∧
     ∀ s : State,
       (s.built = false → Raises (.inv a) s .notBuilt) ∧
       (s.built = true → a = 0#8 → Raises (.inv a) s .zeroOperand) ∧
       (Ready s → a ≠ 0#8 → ∃ la v, s.log.read a.toNat = some la ∧
         s.exp.read (255 - la.toNat) = some v ∧ Responds (.inv a) s v))

/-- R137: while BUILT = 1 MUL (MODE = 0), DIV, POW and INV read EXP at mulIndex, divIndex, powIndex and
invIndex of the logarithms of their operands, whatever EXP holds (`m`), and no other entry. Those indices
lie in the ranges of the rule, inside EXP; nothing is cut off; no logarithm read is the sentinel. -/
def Obligations.IndicesStayInTheExpTable : Prop :=
  ∀ (s : State) (a b n : Byte), Ready s → a ≠ 0#8 → b ≠ 0#8 →
    ∃ la lb, HasLogarithm s.log a la ∧ HasLogarithm s.log b lb ∧
      (∀ m : Memory,
        mulLog s.log m a b = readEntry .exp m (mulIndex la lb) ∧
        (s.mode = false → exec (.mul a b) { s with exp := m } =
          answer (readEntry .exp m (mulIndex la lb)) { s with exp := m }) ∧
        exec (.div a b) { s with exp := m } =
          answer (readEntry .exp m (divIndex la lb)) { s with exp := m } ∧
        exec (.pow a n) { s with exp := m } =
          answer (readEntry .exp m (powIndex la (powExponent n))) { s with exp := m } ∧
        exec (.inv a) { s with exp := m } =
          answer (readEntry .exp m (invIndex la)) { s with exp := m }) ∧
      mulIndex la lb = la + lb ∧ mulIndex la lb ≤ 508 ∧
      (divIndex la lb : Int) = (la : Int) + 255 - lb ∧ 1 ≤ divIndex la lb ∧ divIndex la lb ≤ 509 ∧
      la * powExponent n ≤ 64770 ∧ powIndex la (powExponent n) = la * powExponent n % 255 ∧
      powIndex la (powExponent n) ≤ 254 ∧
      (invIndex la : Int) = 255 - (la : Int) ∧ 1 ≤ invIndex la ∧ invIndex la ≤ 255

/-- R139: for a nonzero divisor, DIV is MUL by the divisor's INV; at 0/0 they differ. -/
def Obligations.DivIsMulByTheInverse : Prop :=
  ∀ (s : State) (a b : Byte), Ready s →
    (b ≠ 0#8 → ∃ w v, Responds (.inv b) s w ∧ Responds (.mul a w) s v ∧ Responds (.div a b) s v) ∧
    Responds (.div 0#8 0#8) s 0x00#8 ∧ Raises (.inv 0#8) s .zeroOperand

/-- R140: the field laws, as responses of ADD, MUL and INV while BUILT = 1. -/
def Obligations.FieldLawsHold : Prop :=
  ∀ (s : State) (a b c : Byte), Ready s →
    (∃ x, Responds (.add a b) s x ∧ Responds (.add b a) s x) ∧
    (∃ x y z, Responds (.add a b) s x ∧ Responds (.add x c) s z ∧
      Responds (.add b c) s y ∧ Responds (.add a y) s z) ∧
    Responds (.add a 0#8) s a ∧ Responds (.add a a) s 0#8 ∧
    (∃ x, Responds (.mul a b) s x ∧ Responds (.mul b a) s x) ∧
    (∃ x y z, Responds (.mul a b) s x ∧ Responds (.mul x c) s z ∧
      Responds (.mul b c) s y ∧ Responds (.mul a y) s z) ∧
    Responds (.mul a 1#8) s a ∧ Responds (.mul 0#8 a) s 0#8 ∧
    (∃ y z ab ac, Responds (.add b c) s y ∧ Responds (.mul a y) s z ∧
      Responds (.mul a b) s ab ∧ Responds (.mul a c) s ac ∧ Responds (.add ab ac) s z) ∧
    (a ≠ 0#8 → ∃ x, Responds (.inv a) s x ∧ Responds (.mul a x) s 1#8)

/-- R141: the document's testable properties, in its order. -/
def Obligations.DocumentedPropertiesHold : Prop :=
  ∀ (s : State) (a b : Byte), Ready s →
    (a ≠ 0#8 → ∃ x, Responds (.inv a) s x ∧ Responds (.mul a x) s 1#8) ∧
    (∃ x, Responds (.add a b) s x ∧ Responds (.sub a b) s x ∧ Responds (.add x b) s a) ∧
    (b ≠ 0#8 → ∃ q, Responds (.div a b) s q ∧ Responds (.mul q b) s a) ∧
    (Raises (.div a 0#8) s .divByZero ↔ a ≠ 0#8) ∧ Responds (.div 0#8 0#8) s 0#8 ∧
    (a ≠ 0#8 → Responds (.pow a 1#8) s a ∧ Responds (.pow a 0#8) s 1#8 ∧
      Responds (.pow a 255#8) s 1#8) ∧
    (a ≠ 0#8 → ∃ l, s.log.read a.toNat = some l ∧ s.exp.read l.toNat = some a ∧
      Responds (.logr a) s l ∧ Responds (.expr (l.setWidth 9)) s a) ∧
    (∀ t, Ready t → t.prim = s.prim → s.mode = true → t.mode = false →
      ∃ v, Responds (.mul a b) s v ∧ Responds (.mul a b) t v) ∧
    (s.prim = 0x11D#9 → Responds (.mul 3#8 7#8) s 9#8 ∧ Responds (.mul 0#8 b) s 0#8 ∧
      Responds (.div 9#8 3#8) s 7#8 ∧ Responds (.inv 1#8) s 1#8)

/-- R142: POW is repeated MUL, and the product of two powers of one element is the EXP entry at the
logarithm times the sum of the exponents. -/
def Obligations.PowersCompose : Prop :=
  ∀ (s : State) (a : Byte), Ready s → a ≠ 0#8 →
    (∃ f : Nat → Byte, f 0 = 1#8 ∧ (∀ k, k < 255 → Responds (.mul a (f k)) s (f (k + 1))) ∧
      ∀ n : Byte, Responds (.pow a n) s (f n.toNat)) ∧
    (∀ n m : Byte, ∃ la x y v, s.log.read a.toNat = some la ∧ Responds (.pow a n) s x ∧
      Responds (.pow a m) s y ∧ Responds (.mul x y) s v ∧
      s.exp.read (la.toNat * (n.toNat + m.toNat) % 255) = some v)

/-! ## Table reads and NOT_BUILT -/

/-- R170: LOGR raises NOT_BUILT while BUILT = 0, and otherwise responds with the stored byte, 0xFF at
index 0 and nowhere else.
A reserved bit of the format set raises ILLEGAL_COMMAND. -/
def Obligations.LogrReadsTheStoredByte : Prop :=
  (∀ w : CommandWord, w.extractLsb' 28 4 = 0x7#4 →
    w.extractLsb' 16 12 ≠ 0#12 ∨ w.extractLsb' 0 8 ≠ 0#8 → ∀ s : State, RaisesIllegal w s) ∧
  (∀ a : Byte,
     decode (0x7#4 ++ 0#12 ++ a ++ 0#8) = .ok (.logr a) ∧
     ∀ s : State,
       (s.built = false → Raises (.logr a) s .notBuilt) ∧
       (Ready s → ∃ v, s.log.read a.toNat = some v ∧ Responds (.logr a) s v ∧
         (v = 0xFF#8 ↔ a = 0#8)))

/-- R171, R208: EXPR raises NOT_BUILT while BUILT = 0 and INDEX_RANGE for 510 and 511 while BUILT = 1, and
otherwise responds with the entry.
A reserved bit of the format set raises ILLEGAL_COMMAND. -/
def Obligations.ExprReadsTheEntryOrRaises : Prop :=
  (∀ w : CommandWord, w.extractLsb' 28 4 = 0x8#4 → w.extractLsb' 9 19 ≠ 0#19 →
    ∀ s : State, RaisesIllegal w s) ∧
  (∀ idx : BitVec 9,
     decode (0x8#4 ++ 0#19 ++ idx) = .ok (.expr idx) ∧
     ∀ s : State,
       (s.built = false → Raises (.expr idx) s .notBuilt) ∧
       (s.built = true → 509 < idx.toNat → Raises (.expr idx) s .indexRange) ∧
       (Ready s → idx.toNat ≤ 509 → ∃ v, s.exp.read idx.toNat = some v ∧ Responds (.expr idx) s v))

/-- R204: MUL, DIV, POW, INV, LOGR and EXPR raise NOT_BUILT while BUILT = 0, for every operand; ADD, SUB,
CSRR and BUILD never raise it. -/
def Obligations.NotBuiltBeforeAnyOperandCheck : Prop :=
  (∀ s : State, s.built = false → ∀ (a b : Byte) (idx : BitVec 9),
    Raises (.mul a b) s .notBuilt ∧ Raises (.div a b) s .notBuilt ∧
    Raises (.pow a b) s .notBuilt ∧ Raises (.inv a) s .notBuilt ∧
    Raises (.logr a) s .notBuilt ∧ Raises (.expr idx) s .notBuilt) ∧
  (∀ (i : Instr) (s t : State), i.mnemonic ∈ [.add, .sub, .csrr, .build] → exec i s = .next t →
    t.responses ≠ s.responses ++ [.err .notBuilt])

/-- The model's choices (log 4, log 5), no rule of the spec: with BUILT = 1 and tables that R24 rules out,
every table-reading command stops with a fault that names the table when an entry it would read has no
value, and MUL (MODE = 0), DIV, POW and INV stop on the sentinel at an operand they would calculate with.
The first operand's logarithm is read first. -/
def Obligations.TablesThatDoNotHoldStopTheModel : Prop :=
  ∀ s : State, s.built = true →
    (∀ a : Byte, s.log.read a.toNat = none → exec (.logr a) s = .fault (.unspecifiedEntry .log)) ∧
    (∀ idx : BitVec 9, idx.toNat ≤ 509 → s.exp.read idx.toNat = none →
      exec (.expr idx) s = .fault (.unspecifiedEntry .exp)) ∧
    (∀ a b : Byte, s.mode = true → s.mtab.read (256 * a.toNat + b.toNat) = none →
      exec (.mul a b) s = .fault (.unspecifiedEntry .mtab)) ∧
    ∀ (a b n : Byte), a ≠ 0#8 → b ≠ 0#8 →
      (∀ f, NoLogarithm s.log a f →
        (s.mode = false → exec (.mul a b) s = .fault f) ∧ exec (.div a b) s = .fault f ∧
        exec (.pow a n) s = .fault f ∧ exec (.inv a) s = .fault f) ∧
      (∀ la f, HasLogarithm s.log a la → NoLogarithm s.log b f →
        (s.mode = false → exec (.mul a b) s = .fault f) ∧ exec (.div a b) s = .fault f) ∧
      (∀ la lb, HasLogarithm s.log a la → HasLogarithm s.log b lb →
        (s.mode = false → s.exp.read (la + lb) = none →
          exec (.mul a b) s = .fault (.unspecifiedEntry .exp)) ∧
        (s.exp.read (la + 255 - lb) = none →
          exec (.div a b) s = .fault (.unspecifiedEntry .exp)) ∧
        (s.exp.read (la * n.toNat % 255) = none →
          exec (.pow a n) s = .fault (.unspecifiedEntry .exp)) ∧
        (s.exp.read (255 - la) = none → exec (.inv a) s = .fault (.unspecifiedEntry .exp)))

/-! ## Parameters and assembler text -/

/-- R243: every latency is at least one step. -/
def Obligations.LatenciesAreAtLeastOneStep : Prop :=
  ∀ i : Instr, 1 ≤ latency i

/-- R84: the mnemonic and the operands of an instruction assemble to its word. -/
def Obligations.AssemblerGivesTheWordOfACommand : Prop :=
  (∀ i : Instr, assembleOp (sourceOf i).1 (sourceOf i).2 = .ok (encode i)) ∧
  (∀ sel : BitVec 2, assembleOp .csrr [.reg sel] = .ok (encode (.csrr sel)))

/-- R84: an operand that does not fit its field is an assembly error, not a truncation. -/
def Obligations.AssemblerRefusesWideOperands : Prop :=
  (∀ a b : Nat, 256 ≤ a ∨ 256 ≤ b → ∀ op : AsmOp, op ∈ [.add, .sub, .mul, .div, .pow] →
    assembleOp op [.num a, .num b] = .error .operandTooWide) ∧
  (∀ a : Nat, 256 ≤ a → ∀ op : AsmOp, op ∈ [.inv, .logr, .sqr, .build] →
    assembleOp op [.num a] = .error .operandTooWide) ∧
  (∀ i : Nat, 512 ≤ i → assembleOp .expr [.num i] = .error .operandTooWide) ∧
  (∀ p m : Nat, 256 ≤ p ∨ 2 ≤ m → assembleOp .build [.num p, .num m] = .error .operandTooWide) ∧
  (∀ sel : Nat, 4 ≤ sel → assembleOp .csrr [.num sel] = .error .operandTooWide)

/-- R85: the expansions of the pseudo-instructions. -/
def Obligations.PseudoInstructionsExpand : Prop :=
  assembleOp .build [] = .ok (encode (.build 0x1D#8 false)) ∧
  (∀ p : Nat, assembleOp .build [.num p] = assembleOp .build [.num p, .num 0]) ∧
  (∀ a : Nat, assembleOp .sqr [.num a] = assembleOp .mul [.num a, .num a]) ∧
  (∀ w : CommandWord, assembleOp .word [.num w.toNat] = .ok w)
end

