-- ==== Sys2Proof/Laws/Memory.lean ====
section
/-! SUPPORT. Table memories: read after write, canonical form, extensionality, bounds. -/

namespace Sys2Proof.Machine

@[simp] theorem Memory.read_nil (i : Nat) : Memory.read [] i = none := rfl

theorem Memory.read_cons (j : Nat) (v : Byte) (m : Memory) (i : Nat) :
    Memory.read ((j, v) :: m) i = if i = j then some v else Memory.read m i := rfl

/-- In a rising memory nothing at or below the bound is listed. -/
theorem Memory.read_eq_none_of_risingAbove {m : Memory} {k i : Nat}
    (h : Memory.risingAbove (some k) m = true) (hi : i ≤ k) : m.read i = none := by
  induction m generalizing k with
  | nil => rfl
  | cons c m ih =>
    obtain ⟨j, v⟩ := c
    simp only [Memory.risingAbove, Bool.and_eq_true, decide_eq_true_eq] at h
    rw [Memory.read_cons, if_neg (by omega)]
    exact ih h.2 (by omega)

/-- A bound may be lowered. -/
theorem Memory.risingAbove_mono {m : Memory} {k l : Nat}
    (h : Memory.risingAbove (some k) m = true) (hl : l ≤ k) :
    Memory.risingAbove (some l) m = true := by
  cases m with
  | nil => rfl
  | cons c m =>
    obtain ⟨j, v⟩ := c
    simp only [Memory.risingAbove, Bool.and_eq_true, decide_eq_true_eq] at h ⊢
    exact ⟨by omega, h.2⟩

/-- A rising memory is canonical. -/
theorem Memory.wf_of_risingAbove {m : Memory} {k : Nat}
    (h : Memory.risingAbove (some k) m = true) : m.wf = true := by
  cases m with
  | nil => rfl
  | cons c m =>
    simp only [Memory.risingAbove, Bool.and_eq_true] at h
    exact h.2

/-- The entry written reads back (R9). -/
@[simp] theorem Memory.read_write_same (m : Memory) (i : Nat) (v : Byte) :
    (m.write i v).read i = some v := by
  induction m with
  | nil => simp [Memory.write, Memory.read_cons]
  | cons c m ih =>
    obtain ⟨j, u⟩ := c
    simp only [Memory.write]
    split
    · simp [Memory.read_cons]
    · split
      · simp [Memory.read_cons]
      · simp [Memory.read_cons, *]

/-- Every other entry is as before (R52). -/
theorem Memory.read_write_other {m : Memory} {i k : Nat} (v : Byte) (h : k ≠ i) :
    (m.write i v).read k = m.read k := by
  induction m with
  | nil => simp [Memory.write, Memory.read_cons, h]
  | cons c m ih =>
    obtain ⟨j, u⟩ := c
    simp only [Memory.write]
    split
    · simp [Memory.read_cons, h]
    · split
      · simp_all [Memory.read_cons]
      · simp [Memory.read_cons, ih]

/-- A write above the bound keeps a memory rising. -/
theorem Memory.risingAbove_write {m : Memory} {k i : Nat} (v : Byte)
    (h : Memory.risingAbove (some k) m = true) (hi : k < i) :
    Memory.risingAbove (some k) (m.write i v) = true := by
  induction m generalizing k with
  | nil => simp [Memory.write, Memory.risingAbove, hi]
  | cons c m ih =>
    obtain ⟨j, u⟩ := c
    simp only [Memory.risingAbove, Bool.and_eq_true, decide_eq_true_eq] at h
    simp only [Memory.write]
    split
    · simp_all [Memory.risingAbove]
    · split
      · simp_all [Memory.risingAbove]
      · simp only [Memory.risingAbove, Bool.and_eq_true, decide_eq_true_eq]
        exact ⟨h.1, ih h.2 (by omega)⟩

/-- A write keeps the canonical form. -/
theorem Memory.write_wf {m : Memory} (i : Nat) (v : Byte) (h : m.wf = true) :
    (m.write i v).wf = true := by
  cases m with
  | nil => rfl
  | cons c m =>
    obtain ⟨j, u⟩ := c
    have hm : Memory.risingAbove (some j) m = true := h
    simp only [Memory.write]
    split
    · simp_all [Memory.wf, Memory.risingAbove]
    · split
      · simp_all [Memory.wf, Memory.risingAbove]
      · exact Memory.risingAbove_write v hm (by omega)

theorem Memory.risingAbove_ofBytesFrom {k l : Nat} (vs : List Byte) (h : k < l) :
    Memory.risingAbove (some k) (Memory.ofBytesFrom l vs) = true := by
  induction vs generalizing k l with
  | nil => rfl
  | cons v vs ih => simp [Memory.ofBytesFrom, Memory.risingAbove, h, ih]

/-- A memory made of a list of bytes is canonical. -/
theorem Memory.ofBytes_wf (vs : List Byte) : (Memory.ofBytes vs).wf = true := by
  cases vs with
  | nil => rfl
  | cons v vs => exact Memory.risingAbove_ofBytesFrom vs (by omega)

theorem Memory.read_ofBytesFrom (k i : Nat) (vs : List Byte) :
    (Memory.ofBytesFrom k vs).read (k + i) = vs[i]? := by
  induction vs generalizing k i with
  | nil => rfl
  | cons v vs ih =>
    cases i with
    | zero => simp [Memory.ofBytesFrom, Memory.read_cons]
    | succ i =>
      have := ih (k + 1) i
      rw [Nat.add_right_comm k 1 i] at this
      simpa [Memory.ofBytesFrom, Memory.read_cons, Nat.add_assoc] using this

/-- It reads as the list. -/
@[simp] theorem Memory.read_ofBytes (vs : List Byte) (i : Nat) :
    (Memory.ofBytes vs).read i = vs[i]? := by
  have := Memory.read_ofBytesFrom 0 i vs
  rwa [Nat.zero_add] at this

/-- Two canonical memories that read alike are equal: the canonical form has one memory for each
contents. -/
theorem Memory.ext_of_wf {m n : Memory} (hm : m.wf = true) (hn : n.wf = true)
    (h : ∀ i, m.read i = n.read i) : m = n := by
  induction m generalizing n with
  | nil =>
    cases n with
    | nil => rfl
    | cons c n => obtain ⟨j, v⟩ := c; simpa [Memory.read_cons] using h j
  | cons c m ih =>
    obtain ⟨j, v⟩ := c
    cases n with
    | nil => simpa [Memory.read_cons] using h j
    | cons d n =>
      obtain ⟨k, u⟩ := d
      have hm' : Memory.risingAbove (some j) m = true := hm
      have hn' : Memory.risingAbove (some k) n = true := hn
      have hjk : j = k := by
        rcases Nat.lt_trichotomy j k with hlt | heq | hgt
        · have := h j
          rw [Memory.read_cons, Memory.read_cons, if_pos rfl, if_neg (by omega),
            Memory.read_eq_none_of_risingAbove hn' (by omega)] at this
          exact absurd this (by simp)
        · exact heq
        · have := h k
          rw [Memory.read_cons, Memory.read_cons, if_pos rfl, if_neg (by omega),
            Memory.read_eq_none_of_risingAbove hm' (by omega)] at this
          exact absurd this.symm (by simp)
      subst hjk
      have hvu : v = u := by simpa [Memory.read_cons] using h j
      subst hvu
      have : m = n := ih (Memory.wf_of_risingAbove hm') (Memory.wf_of_risingAbove hn') fun i => by
        by_cases hi : i = j
        · subst hi
          rw [Memory.read_eq_none_of_risingAbove hm' (by omega),
            Memory.read_eq_none_of_risingAbove hn' (by omega)]
        · simpa [Memory.read_cons, hi] using h i
      rw [this]

/-- The bytes written one after another, the first at index `k` (R9: one entry at a time). -/
def Memory.writeAll : Nat → List Byte → Memory → Memory
  | _, [], m => m
  | k, v :: vs, m => Memory.writeAll (k + 1) vs (m.write k v)

theorem Memory.writeAll_wf (k : Nat) (vs : List Byte) {m : Memory} (h : m.wf = true) :
    (Memory.writeAll k vs m).wf = true := by
  induction vs generalizing k m with
  | nil => exact h
  | cons v vs ih => exact ih (k + 1) (Memory.write_wf k v h)

theorem Memory.read_writeAll (k : Nat) (vs : List Byte) (m : Memory) (i : Nat) :
    (Memory.writeAll k vs m).read i =
      if k ≤ i ∧ i < k + vs.length then vs[i - k]? else m.read i := by
  induction vs generalizing k m with
  | nil => rw [if_neg (by simp)]; rfl
  | cons v vs ih =>
    rw [Memory.writeAll, ih, List.length_cons]
    by_cases hik : i = k
    · subst hik
      rw [if_neg (by omega), if_pos (by omega), Memory.read_write_same, Nat.sub_self]
      rfl
    · by_cases hr : k + 1 ≤ i ∧ i < k + 1 + vs.length
      · rw [if_pos hr, if_pos (by omega), show i - k = (i - (k + 1)) + 1 by omega]
        rfl
      · rw [if_neg hr, if_neg (by omega), Memory.read_write_other v hik]

/-- A memory made of a list of bytes is what writing them one after another leaves. -/
theorem Memory.writeAll_nil (vs : List Byte) : Memory.writeAll 0 vs [] = Memory.ofBytes vs := by
  refine Memory.ext_of_wf (Memory.writeAll_wf 0 vs rfl) (Memory.ofBytes_wf vs) fun i => ?_
  rw [Memory.read_writeAll, Memory.read_ofBytes]
  split
  · rfl
  · rw [List.getElem?_eq_none (by omega)]
    rfl

/-! ## Bounds -/

@[simp] theorem Memory.below_nil (n : Nat) : Memory.below n [] = true := rfl

theorem Memory.below_cons {n j : Nat} {v : Byte} {m : Memory} :
    Memory.below n ((j, v) :: m) = true ↔ j < n ∧ m.below n = true := by
  simp [Memory.below]

/-- Nothing is listed outside the bound. -/
theorem Memory.read_eq_none_of_below {m : Memory} {n i : Nat} (h : m.below n = true) (hi : n ≤ i) :
    m.read i = none := by
  induction m with
  | nil => rfl
  | cons c m ih =>
    obtain ⟨hj, hm⟩ := Memory.below_cons.mp h
    rw [Memory.read_cons, if_neg (by omega)]
    exact ih hm

/-- A write inside the bound keeps it. -/
theorem Memory.below_write {m : Memory} {n i : Nat} (v : Byte) (h : m.below n = true) (hi : i < n) :
    (m.write i v).below n = true := by
  induction m with
  | nil => exact Memory.below_cons.mpr ⟨hi, rfl⟩
  | cons c m ih =>
    obtain ⟨hj, hm⟩ := Memory.below_cons.mp h
    simp only [Memory.write]
    split
    · exact Memory.below_cons.mpr ⟨hi, h⟩
    · split
      · exact Memory.below_cons.mpr ⟨hi, hm⟩
      · exact Memory.below_cons.mpr ⟨hj, ih hm⟩

theorem Memory.below_ofBytesFrom {n : Nat} (k : Nat) (vs : List Byte) (h : k + vs.length ≤ n) :
    (Memory.ofBytesFrom k vs).below n = true := by
  induction vs generalizing k with
  | nil => rfl
  | cons v vs ih =>
    rw [List.length_cons] at h
    exact Memory.below_cons.mpr ⟨by omega, ih (k + 1) (by omega)⟩

/-- A memory made of a list of bytes lies below the list's length. -/
theorem Memory.below_ofBytes (vs : List Byte) : (Memory.ofBytes vs).below vs.length = true := by
  exact Memory.below_ofBytesFrom 0 vs (by omega)

/-- A write inside the space keeps its memory canonical (R50, R52). -/
theorem Memory.wfIn_write {sp : TableSpace} {m : Memory} {i : Nat} (v : Byte)
    (h : m.wfIn sp = true) (hi : i < sp.entries) : (m.write i v).wfIn sp = true := by
  simp only [Memory.wfIn, Bool.and_eq_true] at h ⊢
  exact ⟨Memory.write_wf i v h.1, Memory.below_write v h.2 hi⟩

end Sys2Proof.Machine
end

