-- ==== Sys2Proof/Laws/State.lean ====
section
/-! SUPPORT. What each update of State leaves in each field, by rfl; later proofs cite these and do not
unfold an update. -/

namespace Sys2Proof.Machine

variable (s : State) (v : Byte) (e : Exc) (w : CommandWord) (rest : List HostInput)
variable (poly : Byte) (mt : Bool) (ws : List Byte)

/-! ## respond -/

@[simp] theorem State.respond_primLo : (s.respond v).primLo = s.primLo := rfl
@[simp] theorem State.respond_built : (s.respond v).built = s.built := rfl
@[simp] theorem State.respond_mode : (s.respond v).mode = s.mode := rfl
@[simp] theorem State.respond_status : (s.respond v).status = 0x00#8 := rfl
@[simp] theorem State.respond_errBits : (s.respond v).errBits = s.errBits := rfl
@[simp] theorem State.respond_log : (s.respond v).log = s.log := rfl
@[simp] theorem State.respond_exp : (s.respond v).exp = s.exp := rfl
@[simp] theorem State.respond_mtab : (s.respond v).mtab = s.mtab := rfl
@[simp] theorem State.respond_inFlight : (s.respond v).inFlight = none := rfl
@[simp] theorem State.respond_inputs : (s.respond v).inputs = s.inputs := rfl
@[simp] theorem State.respond_responses : (s.respond v).responses = s.responses ++ [.ok v] := rfl

/-! ## raise -/

@[simp] theorem State.raise_primLo : (s.raise e).primLo = s.primLo := rfl
@[simp] theorem State.raise_built : (s.raise e).built = s.built := rfl
@[simp] theorem State.raise_mode : (s.raise e).mode = s.mode := rfl
@[simp] theorem State.raise_status : (s.raise e).status = e.code := rfl
@[simp] theorem State.raise_errBits : (s.raise e).errBits = s.errBits ||| e.errBit := rfl
@[simp] theorem State.raise_log : (s.raise e).log = s.log := rfl
@[simp] theorem State.raise_exp : (s.raise e).exp = s.exp := rfl
@[simp] theorem State.raise_mtab : (s.raise e).mtab = s.mtab := rfl
@[simp] theorem State.raise_inFlight : (s.raise e).inFlight = none := rfl
@[simp] theorem State.raise_inputs : (s.raise e).inputs = s.inputs := rfl
@[simp] theorem State.raise_responses : (s.raise e).responses = s.responses ++ [.err e] := rfl

/-! ## accept -/

@[simp] theorem State.accept_primLo : (s.accept w rest).primLo = s.primLo := rfl
@[simp] theorem State.accept_built : (s.accept w rest).built = s.built := rfl
@[simp] theorem State.accept_mode : (s.accept w rest).mode = s.mode := rfl
@[simp] theorem State.accept_status : (s.accept w rest).status = s.status := rfl
@[simp] theorem State.accept_errBits : (s.accept w rest).errBits = s.errBits := rfl
@[simp] theorem State.accept_log : (s.accept w rest).log = s.log := rfl
@[simp] theorem State.accept_exp : (s.accept w rest).exp = s.exp := rfl
@[simp] theorem State.accept_mtab : (s.accept w rest).mtab = s.mtab := rfl
@[simp] theorem State.accept_inFlight : (s.accept w rest).inFlight = some w := rfl
@[simp] theorem State.accept_inputs : (s.accept w rest).inputs = rest := rfl
@[simp] theorem State.accept_responses : (s.accept w rest).responses = s.responses := rfl

/-! ## assertReset -/

@[simp] theorem State.assertReset_primLo : (s.assertReset rest).primLo = 0x1D#8 := rfl
@[simp] theorem State.assertReset_built : (s.assertReset rest).built = false := rfl
@[simp] theorem State.assertReset_mode : (s.assertReset rest).mode = false := rfl
@[simp] theorem State.assertReset_status : (s.assertReset rest).status = 0x00#8 := rfl
@[simp] theorem State.assertReset_errBits : (s.assertReset rest).errBits = 0#7 := rfl
@[simp] theorem State.assertReset_log : (s.assertReset rest).log = [] := rfl
@[simp] theorem State.assertReset_exp : (s.assertReset rest).exp = [] := rfl
@[simp] theorem State.assertReset_mtab : (s.assertReset rest).mtab = [] := rfl
@[simp] theorem State.assertReset_inFlight : (s.assertReset rest).inFlight = none := rfl
@[simp] theorem State.assertReset_inputs : (s.assertReset rest).inputs = rest := rfl
@[simp] theorem State.assertReset_responses : (s.assertReset rest).responses = s.responses := rfl

/-! ## commitTables -/

@[simp] theorem State.commitTables_primLo : (s.commitTables poly mt ws).primLo = poly := rfl
@[simp] theorem State.commitTables_built : (s.commitTables poly mt ws).built = true := rfl
@[simp] theorem State.commitTables_mode : (s.commitTables poly mt ws).mode = mt := rfl
@[simp] theorem State.commitTables_status : (s.commitTables poly mt ws).status = s.status := rfl
@[simp] theorem State.commitTables_errBits : (s.commitTables poly mt ws).errBits = s.errBits := rfl
@[simp] theorem State.commitTables_log : (s.commitTables poly mt ws).log = logTable ws := rfl
@[simp] theorem State.commitTables_exp : (s.commitTables poly mt ws).exp = expTable ws := rfl
@[simp] theorem State.commitTables_mtab : (s.commitTables poly mt ws).mtab =
    if mt then mtabTable (logTable ws) (expTable ws) else s.mtab := rfl
@[simp] theorem State.commitTables_inFlight :
    (s.commitTables poly mt ws).inFlight = s.inFlight := rfl
@[simp] theorem State.commitTables_inputs : (s.commitTables poly mt ws).inputs = s.inputs := rfl
@[simp] theorem State.commitTables_responses :
    (s.commitTables poly mt ws).responses = s.responses := rfl

/-! ## present -/

@[simp] theorem State.present_inFlight : (s.present w).inFlight = none := rfl
@[simp] theorem State.present_inputs : (s.present w).inputs = .command w :: s.inputs := rfl
@[simp] theorem State.present_responses : (s.present w).responses = s.responses := rfl
@[simp] theorem State.present_built : (s.present w).built = s.built := rfl

/-! ## The registers the accessors give -/

/-- PRIM depends on PRIM[7:0] alone. -/
theorem State.prim_eq_of_primLo {s t : State} (h : t.primLo = s.primLo) : t.prim = s.prim := by
  simp [State.prim, h]

@[simp] theorem State.respond_prim : (s.respond v).prim = s.prim := rfl
@[simp] theorem State.raise_prim : (s.raise e).prim = s.prim := rfl
@[simp] theorem State.accept_prim : (s.accept w rest).prim = s.prim := rfl
@[simp] theorem State.commitTables_prim : (s.commitTables poly mt ws).prim = polyOf poly := rfl

end Sys2Proof.Machine
end

