-- ==== Sys2Proof/Laws/Ops.lean ====
section
/-! SUPPORT. What the shared operations can do, said once. -/

namespace Sys2Proof.Machine

/-! ## Indices, in numbers -/

@[simp] theorem logIndex_eq (x : Byte) : logIndex x = x.toNat := rfl
@[simp] theorem mtabIndex_eq (a b : Byte) : mtabIndex a b = 256 * a.toNat + b.toNat := rfl
@[simp] theorem exprIndex_eq (idx : BitVec 9) : exprIndex idx = idx.toNat := rfl
@[simp] theorem powExponent_eq (n : Byte) : powExponent n = n.toNat := rfl
@[simp] theorem mulIndex_eq (la lb : Nat) : mulIndex la lb = la + lb := rfl
@[simp] theorem divIndex_eq (la lb : Nat) : divIndex la lb = la + 255 - lb := rfl
@[simp] theorem powIndex_eq (la n : Nat) : powIndex la n = la * n % 255 := rfl
@[simp] theorem invIndex_eq (la : Nat) : invIndex la = 255 - la := rfl

/-! ## Table reads in a rule -/

/-- A read in a rule gives a value exactly when the entry has one. -/
@[simp] theorem readEntry_ok {sp : TableSpace} {m : Memory} {i : Nat} {v : Byte} :
    readEntry sp m i = .ok v ↔ m.read i = some v := by
  unfold readEntry; split <;> simp_all

@[simp] theorem readEntry_error {sp : TableSpace} {m : Memory} {i : Nat} {f : Fault} :
    readEntry sp m i = .error f ↔ m.read i = none ∧ f = .unspecifiedEntry sp := by
  unfold readEntry
  cases m.read i <;> simp [eq_comm]

@[simp] theorem decodeLog_some {v : Byte} {l : Nat} :
    decodeLog v = some l ↔ v ≠ 0xFF#8 ∧ v.toNat = l := by
  unfold decodeLog; split <;> simp_all

/-- A logarithm a rule calculates with is at most 254 (R51). -/
theorem decodeLog_le {v : Byte} {l : Nat} (h : decodeLog v = some l) : l ≤ 254 := by
  obtain ⟨hv, rfl⟩ := decodeLog_some.mp h
  have := v.isLt
  have : v.toNat ≠ 255 := fun h => hv (BitVec.eq_of_toNat_eq (by simpa using h))
  omega

/-- What is stored for a logarithm reads back as it (R51). -/
theorem decodeLog_storeLog {l : Nat} (h : l ≤ 254) : decodeLog (storeLog (some l)) = some l := by
  have hl : l % 256 = l := Nat.mod_eq_of_lt (by omega)
  simp only [decodeLog_some, storeLog, BitVec.toNat_ofNat]
  refine ⟨fun h' => ?_, by omega⟩
  have := congrArg BitVec.toNat h'
  simp at this
  omega

@[simp] theorem decodeLog_sentinel : decodeLog (storeLog none) = none := rfl

/-- LOG[x] as a number: the entry has a value, and that value is not the sentinel. -/
@[simp] theorem readLogarithm_ok {log : Memory} {x : Byte} {l : Nat} :
    readLogarithm log x = .ok l ↔ ∃ v, log.read x.toNat = some v ∧ decodeLog v = some l := by
  unfold readLogarithm
  rw [logIndex_eq]
  cases h : log.read x.toNat with
  | none => simp [readEntry, h]
  | some v => cases hv : decodeLog v <;> simp [readEntry, h, hv, -decodeLog_some]

/-- A command that reads the tables answers next exactly when the value is there, and then responds
with it. -/
@[simp] theorem answer_next {r : Except Fault Byte} {s t : State} :
    answer r s = .next t ↔ ∃ v, r = .ok v ∧ t = s.respond v := by
  cases r <;> simp [answer, eq_comm]

@[simp] theorem answer_fault {r : Except Fault Byte} {s : State} {f : Fault} :
    answer r s = .fault f ↔ r = .error f := by
  cases r <;> simp [answer]

@[simp] theorem answer_not_refused {r : Except Fault Byte} {s : State} {q : Refusal} :
    answer r s ≠ .refused q := by
  cases r <;> simp [answer]

/-! ## Exceptions and control registers -/

/-- RSP[15:8] is the status code (R83). -/
theorem Response.word_status (r : Response) : r.word.extractLsb' 8 8 = r.statusCode := by
  cases r with
  | ok v => exact BitVec.extractLsb'_append_eq_left
  | err e => exact BitVec.extractLsb'_append_eq_left

/-- Every exception's code is one of 1..7 (R200). -/
theorem Exc.code_range (e : Exc) : 1 ≤ e.code.toNat ∧ e.code.toNat ≤ 7 := by
  cases e <;> decide

/-- Different exceptions have different codes (R200). -/
theorem Exc.code_injective {e f : Exc} (h : e.code = f.code) : e = f := by
  cases e <;> cases f <;> first | rfl | exact absurd h (by decide)

/-- ERRS[code(e) - 1] is set by e and by no other exception (R200). -/
theorem Exc.errBit_getLsbD (e f : Exc) :
    f.errBit.getLsbD (e.code.toNat - 1) = decide (e = f) := by
  cases e <;> cases f <;> decide

/-- ERRS[i] for i below 7 is the stored bit; ERRS[7] is 0 (R27). -/
theorem State.errs_getLsbD (s : State) (i : Nat) :
    s.errs.getLsbD i = s.errBits.getLsbD i := by
  simp only [State.errs, BitVec.getLsbD_append]
  split
  · rfl
  · rename_i h
    simp [BitVec.getLsbD_of_ge s.errBits i (by omega)]

/-- What each select number reads (R172). -/
theorem State.readControl_cases (s : State) :
    s.readControl 0#2 = s.prim.extractLsb' 0 8 ∧ s.readControl 1#2 = s.ctrl ∧
    s.readControl 2#2 = s.errs ∧ s.readControl 3#2 = s.status := ⟨rfl, rfl, rfl, rfl⟩

end Sys2Proof.Machine
end

