-- ==== Sys2Proof/Laws/TableGeneration.lean ====
section
/-! SUPPORT. The walk as powers, the canonical form of the built tables, and what a product needs. -/

namespace Sys2Proof.Machine

@[simp] theorem walkFrom_length (p : BitVec 9) (n : Nat) (x : Byte) : (walkFrom p n x).length = n := by
  induction n generalizing x with
  | zero => rfl
  | succ n ih => simp [walkFrom, ih]

@[simp] theorem walk_length (p : BitVec 9) : (walk p).length = 256 := walkFrom_length p 256 1#8

theorem walkFrom_power (p : BitVec 9) {n k i : Nat} (h : i < n) :
    (walkFrom p n (power p k))[i]? = some (power p (k + i)) := by
  induction n generalizing k i with
  | zero => omega
  | succ n ih =>
    cases i with
    | zero => simp [walkFrom]
    | succ i =>
      have := ih (k := k + 1) (i := i) (by omega)
      simpa [walkFrom, power, Nat.add_assoc, Nat.add_comm 1 i] using this

/-- s[i] of the walk is the i-th power of x (R103). -/
theorem walk_get (p : BitVec 9) {i : Nat} (h : i < 256) : (walk p)[i]? = some (power p i) := by
  simpa [walk, power] using walkFrom_power p (k := 0) h

/-- Multiplying 0 gives 0 (R102). -/
@[simp] theorem walkStep_zero (p : BitVec 9) : walkStep p 0#8 = 0#8 := by simp [walkStep]

/-- s[i+1] = step_p(s[i]) (R103). -/
theorem power_succ (p : BitVec 9) (i : Nat) : power p (i + 1) = walkStep p (power p i) := rfl

/-- The first 255 values of the walk are the powers 0..254. -/
theorem walk_take (p : BitVec 9) : (walk p).take 255 = (List.range 255).map (power p) := by
  apply List.ext_getElem?
  intro i
  by_cases hi : i < 255
  · rw [List.getElem?_take_of_lt hi, walk_get p (by omega)]
    simp [hi]
  · rw [List.getElem?_eq_none (by simp; omega), List.getElem?_eq_none (by simp; omega)]

/-! ## The tables -/

/-- An index that is none of the values written is as before (R104). -/
theorem read_writeLogs_of_not_mem {xs : List Byte} {k j : Nat} {m : Memory}
    (hj : ∀ x ∈ xs, x.toNat ≠ j) : (writeLogs k xs m).read j = m.read j := by
  induction xs generalizing k m with
  | nil => rfl
  | cons x xs ih =>
    rw [writeLogs, ih fun y hy => hj y (List.mem_cons_of_mem _ hy), logIndex_eq,
      Memory.read_write_other _ (hj x List.mem_cons_self).symm]

/-- A value that the list holds once reads back as its place in the list (R104). -/
theorem read_writeLogs {xs : List Byte} {k i : Nat} {m : Memory} {x : Byte} (hn : xs.Nodup)
    (hx : xs[i]? = some x) :
    (writeLogs k xs m).read x.toNat = some (storeLog (some (k + i))) := by
  induction xs generalizing k m i with
  | nil => simp at hx
  | cons y ys ih =>
    rw [List.nodup_cons] at hn
    cases i with
    | zero =>
      obtain rfl : y = x := by simpa using hx
      have hy : ∀ z ∈ ys, z.toNat ≠ y.toNat := fun z hz he =>
        hn.1 ((BitVec.eq_of_toNat_eq he : z = y) ▸ hz)
      rw [writeLogs, read_writeLogs_of_not_mem hy, logIndex_eq, Memory.read_write_same, Nat.add_zero]
    | succ i =>
      rw [writeLogs, ih hn.2 (by simpa using hx), Nat.add_right_comm, Nat.add_assoc]

/-- EXP[i] is the power i mod 255, for i in 0..509 (R106). -/
theorem read_expTable (p : BitVec 9) {i : Nat} (hi : i < 510) :
    (expTable (walk p)).read i = some (power p (i % 255)) := by
  have hl : ((walk p).take 255).length = 255 := by simp
  rw [expTable, Memory.read_ofBytes]
  by_cases h : i < 255
  · rw [List.getElem?_append_left (by omega), List.getElem?_take_of_lt h, walk_get p (by omega),
      Nat.mod_eq_of_lt h]
  · rw [List.getElem?_append_right (by omega), hl, List.getElem?_take_of_lt (by omega),
      walk_get p (by omega), show i - 255 = i % 255 by omega]

/-- EXP has 510 entries (R50). -/
theorem read_expTable_high (p : BitVec 9) {i : Nat} (hi : 510 ≤ i) :
    (expTable (walk p)).read i = none := by
  rw [expTable, Memory.read_ofBytes, List.getElem?_eq_none (by simp; omega)]

theorem writeLogs_wfIn {m : Memory} (i : Nat) (xs : List Byte) (h : m.wfIn .log = true) :
    (writeLogs i xs m).wfIn .log = true := by
  induction xs generalizing i m with
  | nil => exact h
  | cons x xs ih => exact ih (i + 1) (Memory.wfIn_write _ h x.isLt)

/-- The LOG table is canonical. -/
theorem logTable_wfIn (s : List Byte) : (logTable s).wfIn .log = true := by
  apply writeLogs_wfIn
  have := Memory.below_ofBytes (List.replicate Config.logEntries (storeLog none))
  rw [List.length_replicate] at this
  simp only [Memory.wfIn, Bool.and_eq_true]
  exact ⟨Memory.ofBytes_wf _, this⟩

/-- The EXP table of a walk is canonical. -/
theorem expTable_wfIn (p : BitVec 9) : (expTable (walk p)).wfIn .exp = true := by
  have := Memory.below_ofBytes ((walk p).take 255 ++ (walk p).take 255)
  rw [List.length_append, List.length_take, walk_length] at this
  simp only [Memory.wfIn, Bool.and_eq_true]
  exact ⟨Memory.ofBytes_wf _, this⟩

/-- A cell that is listed stands at its own index. -/
theorem mtabCell_index {log exp : Memory} {i : Nat} {c : Host.Cell}
    (h : mtabCell log exp i = some c) : c.1 = i := by
  unfold mtabCell at h
  split at h
  · cases h; rfl
  · cases h

theorem risingAbove_filterMap_range' {f : Nat → Option Host.Cell}
    (hf : ∀ i c, f i = some c → c.1 = i) (n : Nat) {k l : Nat} (h : k < l) :
    Memory.risingAbove (some k) ((List.range' l n).filterMap f) = true := by
  induction n generalizing k l with
  | zero => rfl
  | succ n ih =>
    simp only [List.range'_succ, List.filterMap_cons]
    split
    · exact ih (by omega)
    · rename_i c hc
      obtain ⟨j, v⟩ := c
      have hj : j = l := hf l _ hc
      subst hj
      simp [Memory.risingAbove, h, ih]

theorem filterMap_range'_wf {f : Nat → Option Host.Cell}
    (hf : ∀ i c, f i = some c → c.1 = i) (l n : Nat) :
    Memory.wf ((List.range' l n).filterMap f) = true := by
  induction n generalizing l with
  | zero => rfl
  | succ n ih =>
    simp only [List.range'_succ, List.filterMap_cons]
    split
    · exact ih (l + 1)
    · rename_i c hc
      obtain ⟨j, v⟩ := c
      have hj : j = l := hf l _ hc
      subst hj
      exact risingAbove_filterMap_range' hf n (by omega)

/-- The MTAB table is canonical. -/
theorem mtabTable_wfIn (log exp : Memory) : (mtabTable log exp).wfIn .mtab = true := by
  simp only [Memory.wfIn, Bool.and_eq_true]
  refine ⟨filterMap_range'_wf (fun _ _ => mtabCell_index) 0 _, ?_⟩
  simp only [Memory.below, List.all_eq_true, decide_eq_true_eq]
  intro c hc
  obtain ⟨i, hi, hic⟩ := List.mem_filterMap.mp hc
  rw [mtabCell_index hic]
  obtain ⟨k, hk, rfl⟩ := List.mem_range'.mp hi
  simpa [TableSpace.entries] using hk

theorem read_filterMap_range' {f : Nat → Option Host.Cell}
    (hf : ∀ i c, f i = some c → c.1 = i) (n l i : Nat) :
    Memory.read ((List.range' l n).filterMap f) i =
      if l ≤ i ∧ i < l + n then (f i).map (·.2) else none := by
  induction n generalizing l with
  | zero => simp
  | succ n ih =>
    simp only [List.range'_succ, List.filterMap_cons]
    cases hc : f l with
    | none =>
      simp only [ih]
      by_cases hi : i = l
      · subst hi; simp [hc]
      · congr 1; simp only [eq_iff_iff]; omega
    | some c =>
      obtain ⟨j, v⟩ := c
      obtain rfl : j = l := hf l _ hc
      simp only [Memory.read_cons, ih]
      by_cases hi : i = j
      · subst hi; simp [hc]
      · rw [if_neg hi]; congr 1; simp only [eq_iff_iff]; omega

/-- MTAB holds the log/exp product of every pair that has one (R109). -/
theorem read_mtabTable {log exp : Memory} {a b v : Byte} (h : mulLog log exp a b = .ok v) :
    (mtabTable log exp).read (256 * a.toNat + b.toNat) = some v := by
  have ha := a.isLt
  have hb := b.isLt
  have hm : Config.mtabEntries = 65536 := rfl
  have e1 : BitVec.ofNat 8 ((256 * a.toNat + b.toNat) / 256) = a := by
    apply BitVec.eq_of_toNat_eq; simp; omega
  have e2 : BitVec.ofNat 8 ((256 * a.toNat + b.toNat) % 256) = b := by
    apply BitVec.eq_of_toNat_eq; simp; omega
  rw [mtabTable, read_filterMap_range' (fun _ _ => mtabCell_index), if_pos ⟨by omega, by omega⟩,
    mtabCell, e1, e2, h]
  rfl

/-! ## What BUILT = 1 means -/

/-- It speaks of PRIM, MODE and the tables only. -/
theorem TablesHold.congr {s t : State} (h : TablesHold s) (hp : t.primLo = s.primLo)
    (hl : t.log = s.log) (he : t.exp = s.exp) (hm : t.mtab = s.mtab) (hd : t.mode = s.mode) :
    TablesHold t := by
  have hprim : t.prim = s.prim := State.prim_eq_of_primLo hp
  exact ⟨hprim ▸ h.primitive, by rw [hl, hprim, h.log], by rw [he, hprim, h.exp],
    by rw [hm, hd, hl, he]; exact h.mtab⟩

/-- The tables hold once a walk that passes the check has been committed (R110). -/
theorem tablesHold_commitTables (s : State) {poly : Byte} (mt : Bool)
    (h : isPrimitive (walk (polyOf poly)) = true) :
    TablesHold (s.commitTables poly mt (walk (polyOf poly))) :=
  ⟨by simpa using h, by simp, by simp, by simp +contextual⟩

/-- A product has a value exactly when an operand is 0, or both logarithms and the EXP entry at their
sum have one (R130). -/
theorem mulLog_ok {log exp : Memory} {a b v : Byte} :
    mulLog log exp a b = .ok v ↔
      ((a = 0#8 ∨ b = 0#8) ∧ v = 0#8) ∨
      (¬ (a = 0#8 ∨ b = 0#8) ∧ ∃ la lb, readLogarithm log a = .ok la ∧
        readLogarithm log b = .ok lb ∧ exp.read (la + lb) = some v) := by
  unfold mulLog mulIndex
  split
  · rename_i h
    simp only [h, true_and, not_true_eq_false, false_and, or_false, Except.ok.injEq]
    exact eq_comm
  · rename_i h
    simp only [h, false_and, not_false_eq_true, true_and, false_or]
    cases readLogarithm log a <;> cases readLogarithm log b <;> simp

end Sys2Proof.Machine
end

