-- ==== Sys2Proof/Laws/Exec.lean ====
section
/-! SUPPORT. What executing a command, and a step, can do, said once. -/

namespace Sys2Proof.Machine

/-- LOG has a number for an element exactly when a rule may calculate with it. -/
theorem hasLogarithm_iff {log : Memory} {x : Byte} {l : Nat} :
    HasLogarithm log x l ↔ readLogarithm log x = .ok l := by
  simp [HasLogarithm]

/-- LOG has no number for an element exactly when a rule that would calculate with it stops. -/
theorem noLogarithm_iff {log : Memory} {x : Byte} {f : Fault} :
    NoLogarithm log x f ↔ readLogarithm log x = .error f := by
  unfold NoLogarithm readLogarithm readEntry
  rw [logIndex_eq]
  cases h : log.read x.toNat with
  | none => simp [eq_comm]
  | some v =>
    by_cases hv : v = 0xFF#8
    · subst hv; simp [decodeLog, eq_comm]
    · simp [decodeLog, hv]

/-- A command that answers next has responded or raised, and only a BUILD that completes has written
anything before that (R9, R201, R32). -/
theorem exec_next_cases {i : Instr} {s t : State} (h : exec i s = .next t) :
    (∃ v, t = s.respond v) ∨ (∃ e, e ∈ mayRaise i.mnemonic ∧ t = s.raise e) ∨
    (∃ poly mt, i = .build poly mt ∧ s.built = false ∧ isPrimitive (walk (polyOf poly)) = true ∧
      t = (s.commitTables poly mt (walk (polyOf poly))).respond 0x00#8) := by
  cases i with
  | add a b => exact .inl ⟨_, by simpa [exec, execAdd] using h.symm⟩
  | sub a b => exact .inl ⟨_, by simpa [exec, execSub] using h.symm⟩
  | csrr sel => exact .inl ⟨_, by simpa [exec, execCsrr] using h.symm⟩
  | mul a b =>
    simp only [exec, execMul] at h
    split at h
    · exact .inr (.inl ⟨.notBuilt, by simp [Instr.mnemonic, mayRaise], by simpa using h.symm⟩)
    · split at h <;> (obtain ⟨v, -, rfl⟩ := answer_next.mp h; exact .inl ⟨v, rfl⟩)
  | div a b =>
    simp only [exec, execDiv] at h
    split at h
    · exact .inr (.inl ⟨.notBuilt, by simp [Instr.mnemonic, mayRaise], by simpa using h.symm⟩)
    · split at h
      · exact .inl ⟨_, by simpa using h.symm⟩
      · split at h
        · exact .inr (.inl ⟨.divByZero, by simp [Instr.mnemonic, mayRaise], by simpa using h.symm⟩)
        · obtain ⟨v, -, rfl⟩ := answer_next.mp h
          exact .inl ⟨v, rfl⟩
  | pow a n =>
    simp only [exec, execPow] at h
    split at h
    · exact .inr (.inl ⟨.notBuilt, by simp [Instr.mnemonic, mayRaise], by simpa using h.symm⟩)
    · split at h
      · exact .inr (.inl ⟨.zeroOperand, by simp [Instr.mnemonic, mayRaise], by simpa using h.symm⟩)
      · obtain ⟨v, -, rfl⟩ := answer_next.mp h
        exact .inl ⟨v, rfl⟩
  | inv a =>
    simp only [exec, execInv] at h
    split at h
    · exact .inr (.inl ⟨.notBuilt, by simp [Instr.mnemonic, mayRaise], by simpa using h.symm⟩)
    · split at h
      · exact .inr (.inl ⟨.zeroOperand, by simp [Instr.mnemonic, mayRaise], by simpa using h.symm⟩)
      · obtain ⟨v, -, rfl⟩ := answer_next.mp h
        exact .inl ⟨v, rfl⟩
  | logr a =>
    simp only [exec, execLogr] at h
    split at h
    · exact .inr (.inl ⟨.notBuilt, by simp [Instr.mnemonic, mayRaise], by simpa using h.symm⟩)
    · obtain ⟨v, -, rfl⟩ := answer_next.mp h
      exact .inl ⟨v, rfl⟩
  | expr idx =>
    simp only [exec, execExpr] at h
    split at h
    · exact .inr (.inl ⟨.notBuilt, by simp [Instr.mnemonic, mayRaise], by simpa using h.symm⟩)
    · split at h
      · exact .inr (.inl ⟨.indexRange, by simp [Instr.mnemonic, mayRaise], by simpa using h.symm⟩)
      · obtain ⟨v, -, rfl⟩ := answer_next.mp h
        exact .inl ⟨v, rfl⟩
  | build poly mt =>
    simp only [exec, execBuild] at h
    split at h
    · exact .inr (.inl ⟨.alreadyBuilt, by simp [Instr.mnemonic, mayRaise], by simpa using h.symm⟩)
    · split at h
      · exact .inr (.inr ⟨poly, mt, rfl, by simpa using ‹¬ s.built = true›, ‹_›,
          by simpa using h.symm⟩)
      · exact .inr (.inl ⟨.nonPrimitive, by simp [Instr.mnemonic, mayRaise], by simpa using h.symm⟩)

/-- No command is refused. -/
theorem exec_not_refused (i : Instr) (s : State) (q : Refusal) : exec i s ≠ .refused q := by
  cases i <;> simp only [exec, execAdd, execSub, execMul, execDiv, execPow, execInv, execLogr,
    execExpr, execBuild, execCsrr] <;> (repeat' split) <;> simp

/-- An accepted word that answers next is a command that does, or an illegal word. -/
theorem executeWord_next_cases {w : CommandWord} {s t : State} (h : executeWord w s = .next t) :
    (∃ i, decode w = .ok i ∧ exec i s = .next t) ∨
    (∃ why, decode w = .error why ∧ t = s.raise .illegalCommand) := by
  unfold executeWord at h
  split at h
  · exact .inl ⟨_, ‹_›, h⟩
  · exact .inr ⟨_, ‹_›, by simpa using h.symm⟩

/-- A step that answers next is one of four: reset, the command in flight, the command presented, or
idling (R230, R240, R220). -/
theorem step_next_cases {s t : State} (h : step s = .next t) :
    (∃ rest, s.inputs = .reset :: rest ∧ t = s.assertReset rest) ∨
    (∃ w, s.inFlight = some w ∧ s.inputs.head? ≠ some .reset ∧ executeWord w s = .next t) ∨
    (∃ w rest, s.inFlight = none ∧ s.inputs = .command w :: rest ∧
      executeWord w (s.accept w rest) = .next t) ∨
    (s.inFlight = none ∧ s.inputs = [] ∧ t = s) := by
  unfold step advance at h
  split at h
  · exact .inl ⟨_, ‹_›, by simpa using h.symm⟩
  · exact .inr (.inl ⟨_, ‹_›, by simp [*], h⟩)
  · exact .inr (.inl ⟨_, ‹_›, by simp [*], h⟩)
  · exact .inr (.inr (.inl ⟨_, _, ‹_›, ‹_›, h⟩))
  · exact .inr (.inr (.inr ⟨‹_›, ‹_›, by simpa using h.symm⟩))

/-- A right-after-reset state: its inputs are the program, nothing is in flight, and STATUS and ERRS are
clear (R31). -/
theorem JustReset.fields {ws : List CommandWord} {u : State} (h : JustReset ws u) :
    u.inputs = programInputs ws ∧ u.inFlight = none ∧ u.status = 0#8 ∧ u.errBits = 0#7 := by
  obtain rfl | ⟨s, rest, hi, hu, hp⟩ := h
  · exact ⟨rfl, rfl, rfl, rfl⟩
  · obtain ⟨rest', -, rfl⟩ | ⟨w, -, hr, -⟩ | ⟨w, rest', -, hc, -⟩ | ⟨-, hn, -⟩ := step_next_cases hu
    · exact ⟨hp, rfl, rfl, rfl⟩
    · simp [hi] at hr
    · simp [hi] at hc
    · simp [hi] at hn

@[simp] theorem run_zero (s : State) : run 0 s = .next s := rfl

/-- A run of one step more is the step, then the run from where it leads. -/
theorem run_succ_next {n : Nat} {s u : State} (h : step s = .next u) : run (n + 1) s = run n u := by
  simp [run, h]

/-- `withFetchWord` does what it is for: the very next step accepts the word and executes it. -/
theorem step_withFetchWord {s : State} {nbits w : Nat} {i : Instr}
    (h : decodeTableWord nbits w = some i) :
    step (s.withFetchWord nbits w) =
      exec i { s with inFlight := some (tableWord nbits w) } := by
  unfold decodeTableWord at h
  split at h
  · cases h
    simp [step, advance, State.withFetchWord, State.present, executeWord, State.accept, *]
  · cases h

end Sys2Proof.Machine
end

