-- ==== Sys2Proof/Laws/PerInstr.lean ====
section
/-! SUPPORT. Statements made per instruction: the word of an instruction lies in its row of the opcode
map (R78). -/

namespace Sys2Proof.Laws.EncodesInRow

/-- The encoded word is covered by the row of the instruction's mnemonic (R78). -/
def Statement (i : Instr) : Prop := (opcodeRow i.mnemonic).covers (encode i) = true

/-- Under the mask of format R (R72) a word keeps its opcode and nothing else. -/
theorem formatR_mask (op : BitVec 4) (a b : Byte) : formatR op a b &&& 0xFFFF0000#32 = op ++ 0#28 := by
  apply BitVec.eq_of_getLsbD_eq
  intro i hi
  have hm : ∀ i < 32, (0xFFFF0000#32).getLsbD i = decide (16 ≤ i) := by decide
  rw [BitVec.getLsbD_and, hm i hi]
  simp only [formatR, BitVec.getLsbD_append]
  interval_cases i <;> simp

/-- Under the mask of format U (R73) a word keeps its opcode and nothing else. -/
theorem formatU_mask (op : BitVec 4) (a : Byte) : formatU op a &&& 0xFFFF00FF#32 = op ++ 0#28 := by
  apply BitVec.eq_of_getLsbD_eq
  intro i hi
  have hm : ∀ i < 32, (0xFFFF00FF#32).getLsbD i = decide (16 ≤ i ∨ i < 8) := by decide
  rw [BitVec.getLsbD_and, hm i hi]
  simp only [formatU, BitVec.getLsbD_append]
  interval_cases i <;> simp

/-- Under the mask of format X (R74) a word keeps its opcode and nothing else. -/
theorem formatX_mask (op : BitVec 4) (idx : BitVec 9) : formatX op idx &&& 0xFFFFFE00#32 = op ++ 0#28 := by
  apply BitVec.eq_of_getLsbD_eq
  intro i hi
  have hm : ∀ i < 32, (0xFFFFFE00#32).getLsbD i = decide (9 ≤ i) := by decide
  rw [BitVec.getLsbD_and, hm i hi]
  simp only [formatX, BitVec.getLsbD_append]
  interval_cases i <;> simp

/-- Under the mask of format C (R75) a word keeps its opcode and nothing else. -/
theorem formatC_mask (op : BitVec 4) (mt : Bool) (poly : Byte) : formatC op mt poly &&& 0xFFFEFF00#32 = op ++ 0#28 := by
  apply BitVec.eq_of_getLsbD_eq
  intro i hi
  have hm : ∀ i < 32, (0xFFFEFF00#32).getLsbD i = decide (17 ≤ i ∨ (8 ≤ i ∧ i < 16)) := by decide
  rw [BitVec.getLsbD_and, hm i hi]
  simp only [formatC, BitVec.getLsbD_append]
  interval_cases i <;> simp

/-- Under the mask of format S (R76) a word keeps its opcode and nothing else. -/
theorem formatS_mask (op : BitVec 4) (sel : BitVec 2) : formatS op sel &&& 0xFFFFFFFC#32 = op ++ 0#28 := by
  apply BitVec.eq_of_getLsbD_eq
  intro i hi
  have hm : ∀ i < 32, (0xFFFFFFFC#32).getLsbD i = decide (2 ≤ i) := by decide
  rw [BitVec.getLsbD_and, hm i hi]
  simp only [formatS, BitVec.getLsbD_append]
  interval_cases i <;> simp

theorem add (a b : Byte) : Statement (.add a b) := by
  simp only [Statement, Instr.mnemonic, OpcodeRow.covers, opcodeRow, encode, formatR_mask]
  decide

theorem sub (a b : Byte) : Statement (.sub a b) := by
  simp only [Statement, Instr.mnemonic, OpcodeRow.covers, opcodeRow, encode, formatR_mask]
  decide

theorem mul (a b : Byte) : Statement (.mul a b) := by
  simp only [Statement, Instr.mnemonic, OpcodeRow.covers, opcodeRow, encode, formatR_mask]
  decide

theorem div (a b : Byte) : Statement (.div a b) := by
  simp only [Statement, Instr.mnemonic, OpcodeRow.covers, opcodeRow, encode, formatR_mask]
  decide

theorem pow (a n : Byte) : Statement (.pow a n) := by
  simp only [Statement, Instr.mnemonic, OpcodeRow.covers, opcodeRow, encode, formatR_mask]
  decide

theorem inv (a : Byte) : Statement (.inv a) := by
  simp only [Statement, Instr.mnemonic, OpcodeRow.covers, opcodeRow, encode, formatU_mask]
  decide

theorem logr (a : Byte) : Statement (.logr a) := by
  simp only [Statement, Instr.mnemonic, OpcodeRow.covers, opcodeRow, encode, formatU_mask]
  decide

theorem expr (idx : BitVec 9) : Statement (.expr idx) := by
  simp only [Statement, Instr.mnemonic, OpcodeRow.covers, opcodeRow, encode, formatX_mask]
  decide

theorem build (poly : Byte) (mt : Bool) : Statement (.build poly mt) := by
  simp only [Statement, Instr.mnemonic, OpcodeRow.covers, opcodeRow, encode, formatC_mask]
  decide

theorem csrr (sel : BitVec 2) : Statement (.csrr sel) := by
  simp only [Statement, Instr.mnemonic, OpcodeRow.covers, opcodeRow, encode, formatS_mask]
  decide

end Sys2Proof.Laws.EncodesInRow
end

