-- ==== Sys2Proof/Tests/Slice0.lean ====
section
/-! SUPPORT. Tests with results from the spec's examples and vectors (95_test_vectors.md), and for each
statement a state and operands that meet its hypotheses. -/

namespace Sys2Proof.Tests

open Sys2Proof Sys2Proof.Machine

/-! ## Helpers -/

/-- The responses, STATUS and ERRS after a command; nothing if the model stops. -/
def outcome (o : Host.Outcome State Fault Refusal) : Option (List ResponseWord × Byte × Byte) :=
  match o with
  | .next t => some (t.responses.map Response.word, t.status, t.errs)
  | .fault _ => none
  | .refused _ => none

/-- The next state, if there is one. -/
def next? (o : Host.Outcome State Fault Refusal) : Option State :=
  match o with
  | .next t => some t
  | .fault _ => none
  | .refused _ => none

/-- A built state with the few LOG and EXP entries of 0x11D that a test needs (V2, V3). -/
def someTables : State :=
  { State.reset with
    built := true
    log := [(0, 0xFF#8), (1, 0#8), (2, 1#8), (3, 25#8), (7, 198#8), (9, 223#8), (0x8E, 254#8)]
    exp := [(8, 0x1D#8), (198, 0x07#8), (223, 0x09#8), (254, 0x8E#8), (255, 0x01#8), (453, 0x07#8),
      (508, 0x47#8), (509, 0x8E#8)] }

/-! ## Decoding: words written out from the formats of R71-R78 -/

-- V5: OP 0001, CMD[27:16] 0, A 01010011, B 11001010.
theorem test_decode_add : decode 0b00010000000000000101001111001010#32 = .ok (.add 0x53#8 0xCA#8) := by
  decide

-- V5.
theorem test_decode_sub : decode 0b00100000000000000101001111001010#32 = .ok (.sub 0x53#8 0xCA#8) := by
  decide

-- E1.
theorem test_decode_mul : decode 0b00110000000000000000001100000111#32 = .ok (.mul 3#8 7#8) := by
  decide

-- E3.
theorem test_decode_div : decode 0b01000000000000000000100100000011#32 = .ok (.div 9#8 3#8) := by
  decide

-- V8.
theorem test_decode_pow : decode 0b01010000000000000000001000001000#32 = .ok (.pow 2#8 8#8) := by
  decide

-- V9.
theorem test_decode_inv : decode 0b01100000000000000000001000000000#32 = .ok (.inv 2#8) := by
  decide

-- V10.
theorem test_decode_logr : decode 0b01110000000000001000111000000000#32 = .ok (.logr 0x8E#8) := by
  decide

-- V10: IDX = 509 needs CMD[8].
theorem test_decode_expr : decode 0b10000000000000000000000111111101#32 = .ok (.expr 509#9) := by
  decide

-- R233: MT is CMD[16].
theorem test_decode_build : decode 0b10010000000000010000000000011101#32 = .ok (.build 0x1D#8 true) := by
  decide

-- V10.
theorem test_decode_csrr : decode 0b10100000000000000000000000000011#32 = .ok (.csrr 3#2) := by
  decide

/-! ## Ill-formed words and numbers, one for each check -/

-- R79, V11.
theorem test_reserved_opcodes :
    wellFormedWord 0x00000000#32 = false ∧ wellFormedWord 0xFFFFFFFF#32 = false ∧
    wellFormedWord 0xB0000000#32 = false := by decide

-- R80, V11: a reserved bit in each of the formats R, U, X, C (twice), S.
theorem test_reserved_bits :
    wellFormedWord 0x10010000#32 = false ∧ wellFormedWord 0x60000201#32 = false ∧
    wellFormedWord 0x80000200#32 = false ∧ wellFormedWord 0x9000011D#32 = false ∧
    wellFormedWord 0x9002001D#32 = false ∧ wellFormedWord 0xA0000004#32 = false := by decide

-- The decoder refuses the same words by name.
theorem test_decode_refuses :
    decode 0xB0000000#32 = .error (.reservedOpcode 0xB#4) ∧
    decode 0x30100307#32 = .error (.reservedBits 0x3#4) ∧
    decode 0x9000011D#32 = .error (.reservedBits 0x9#4) := by decide

-- R84: 256 does not fit 8 bits, 512 does not fit 9.
theorem test_number_too_wide : fitsField 8 256 = false ∧ fitsField 9 512 = false := by decide

/-! ## One step of each command -/

-- V5, in the unbuilt state right after reset.
theorem test_add : outcome (exec (.add 0x53#8 0xCA#8) State.reset) = some ([0x0099#16], 0#8, 0#8) := by
  decide

-- V5.
theorem test_sub : outcome (exec (.sub 0x80#8 0x01#8) State.reset) = some ([0x0081#16], 0#8, 0#8) := by
  decide

-- V6: the largest index, 508.
theorem test_mul_log : outcome (exec (.mul 0x8E#8 0x8E#8) someTables) = some ([0x0047#16], 0#8, 0#8) := by
  decide

-- R133, R50: in MODE = 1 the entry at 256*3 + 7 answers, whatever LOG and EXP hold.
theorem test_mul_mtab :
    outcome (exec (.mul 3#8 7#8) { someTables with mode := true, log := [], mtab := [(775, 9#8)] }) =
      some ([0x0009#16], 0#8, 0#8) := by decide

-- E3: index 453.
theorem test_div : outcome (exec (.div 9#8 3#8) someTables) = some ([0x0007#16], 0#8, 0#8) := by decide

-- V7: 0/0 responds 0, 5/0 raises.
theorem test_div_by_zero :
    outcome (exec (.div 0#8 0#8) someTables) = some ([0x0000#16], 0#8, 0#8) ∧
    outcome (exec (.div 5#8 0#8) someTables) = some ([0x0100#16], 1#8, 0x01#8) := by decide

-- V8: index 8.
theorem test_pow : outcome (exec (.pow 2#8 8#8) someTables) = some ([0x001D#16], 0#8, 0#8) := by decide

-- V8: 0^0 raises.
theorem test_pow_zero : outcome (exec (.pow 0#8 0#8) someTables) = some ([0x0200#16], 2#8, 0x02#8) := by
  decide

-- E4: index 255, the duplicated entry.
theorem test_inv : outcome (exec (.inv 1#8) someTables) = some ([0x0001#16], 0#8, 0#8) := by decide

-- V9.
theorem test_inv_zero : outcome (exec (.inv 0#8) someTables) = some ([0x0200#16], 2#8, 0x02#8) := by
  decide

-- V10: the sentinel, and LOG[3] = 25.
theorem test_logr :
    outcome (exec (.logr 0#8) someTables) = some ([0x00FF#16], 0#8, 0#8) ∧
    outcome (exec (.logr 3#8) someTables) = some ([0x0019#16], 0#8, 0#8) := by decide

-- V10: the last entry, and the first index past it.
theorem test_expr :
    outcome (exec (.expr 509#9) someTables) = some ([0x008E#16], 0#8, 0#8) ∧
    outcome (exec (.expr 510#9) someTables) = some ([0x0700#16], 7#8, 0x40#8) := by decide

-- R172, V10: STATUS is read before it is written; CTRL is 0b000000, MODE, BUILT.
theorem test_csrr :
    outcome (exec (.csrr 3#2) { State.reset with status := 1#8 }) = some ([0x0001#16], 0#8, 0#8) ∧
    outcome (exec (.csrr 1#2) { State.reset with mode := true, built := true }) =
      some ([0x0003#16], 0#8, 0#8) := by decide

-- R172, V10: PRIM[7:0] after reset, and ERRS is not cleared.
theorem test_csrr_prim_errs :
    outcome (exec (.csrr 0#2) State.reset) = some ([0x001D#16], 0#8, 0#8) ∧
    outcome (exec (.csrr 2#2) { State.reset with errBits := 0x5F#7 }) =
      some ([0x005F#16], 0#8, 0x5F#8) := by decide

-- R100's example: LOG[2] = 1, EXP[8] = 0x1D, PRIM = 0x11D; V2: LOG[0x8E] = 254.
theorem test_build :
    (next? (exec (.build 0x1D#8 false) State.reset)).map (fun t =>
      ((t.prim, t.built, t.mode), t.log.read 2, t.log.read 0, t.log.read 0x8E, t.exp.read 8,
        t.exp.read 509, t.exp.read 510)) =
      some ((0x11D#9, true, false), some 1#8, some 0xFF#8, some 254#8, some 0x1D#8, some 0x8E#8,
        none) := by
  decide +kernel

-- V1: POLY 0x1B returns to 1 after 51 steps; P2: the block stays unbuilt.
theorem test_build_not_primitive :
    (next? (exec (.build 0x1B#8 false) State.reset)).map (fun t => (t.built, t.status, t.log)) =
      some (false, 5#8, []) := by
  decide +kernel

-- V1: the walk of 0x1D, s[0..15], and s[254], s[255].
theorem test_walk :
    (walk 0x11D#9).take 16 = [0x01#8, 0x02#8, 0x04#8, 0x08#8, 0x10#8, 0x20#8, 0x40#8, 0x80#8, 0x1D#8,
      0x3A#8, 0x74#8, 0xE8#8, 0xCD#8, 0x87#8, 0x13#8, 0x26#8] ∧
    (walk 0x11D#9)[254]? = some 0x8E#8 ∧ (walk 0x11D#9)[255]? = some 0x01#8 := by
  decide +kernel

-- V6, V12: the reference product under two polynomials.
theorem test_clmul : clmul 0x11D#9 0x53#8 0xCA#8 = 0x8F#8 ∧ clmul 0x12B#9 0x53#8 0xCA#8 = 0xDD#8 := by
  decide

/-! ## The command port -/

-- V11: an illegal word comes before NOT_BUILT (R210).
theorem test_illegal_word :
    outcome (step (State.reset.withFetchWord 32 0x30100307)) = some ([0x0600#16], 6#8, 0x20#8) := by
  decide

-- V11: MUL before BUILD.
theorem test_not_built :
    outcome (step (State.reset.withFetchWord 32 0x30000307)) = some ([0x0300#16], 3#8, 0x04#8) := by
  decide

-- R240: the command in flight responds, the one presented is held.
theorem test_hold :
    (next? (step { State.reset with
      inFlight := some 0x10000307#32, inputs := [.command 0x20000101#32] })).map
      (fun t => (t.responses, t.inputs, t.busy)) =
      some ([.ok 4#8], [.command 0x20000101#32], false) := by decide

-- R230, P5: reset in the middle of a command gives no response and clears ERRS.
theorem test_reset_abandons :
    (next? (step { State.reset with
      errBits := 0x28#7, status := 6#8, built := true, inFlight := some 0x10000307#32,
      inputs := [.reset] })).map (fun t => (t.responses, t.errs, t.status, t.built, t.busy)) =
      some ([], 0#8, 0#8, false, false) := by decide

-- R53: byte 0 is bits 7:0.
theorem test_byte_link : bytesOfWord 0x100053CA#32 = [0xCA#8, 0x53#8, 0x00#8, 0x10#8] := by decide

/-! ## Assembler text -/

-- R84, V6, V11.
theorem test_assemble_line :
    assembleLine "mul 0x8e, 2 ; index 254".toList = .ok (some 0x30008E02#32) ∧
    assembleLine "csrr status".toList = .ok (some 0xA0000003#32) ∧
    assembleLine ".word 0xFFFFFFFF".toList = .ok (some 0xFFFFFFFF#32) ∧
    assembleLine "expr 512".toList = .error .operandTooWide := by decide +kernel

-- R85, P4.
theorem test_assemble_program :
    assemble "build\nmul 0x03, 4\n\nsqr 0x1d".toList =
      .ok [0x9000001D#32, 0x30000304#32, 0x30001D1D#32] := by decide +kernel

/-! ## States that meet the hypotheses of the statements -/

/-- The state a BUILD of the default polynomial leaves, before its response. -/
def readyState (mt : Bool) : State := State.reset.commitTables 0x1D#8 mt (walk (polyOf 0x1D#8))

theorem default_primitive : isPrimitive (walk (polyOf 0x1D#8)) = true := by decide +kernel

theorem reset_inv : StateInv State.reset :=
  ⟨rfl, rfl, rfl, by decide, by simp [State.reset], fun _ => rfl, by simp [State.reset],
    by simp [State.reset]⟩

theorem readyState_inv (mt : Bool) : StateInv (readyState mt) where
  logCanonical := by simpa [readyState] using logTable_wfIn _
  expCanonical := by simpa [readyState] using expTable_wfIn _
  mtabCanonical := by
    cases mt
    · rfl
    · simpa [readyState] using mtabTable_wfIn _ _
  statusLegal := by simp [readyState, State.reset]
  statusRecorded := by simp [readyState, State.reset]
  primUnbuilt := by simp [readyState]
  modeBuilt := by simp [readyState]
  tablesBuilt := fun _ => tablesHold_commitTables _ mt default_primitive

theorem readyState_ready (mt : Bool) : Ready (readyState mt) := ⟨readyState_inv mt, rfl⟩

theorem readyState_prim (mt : Bool) : (readyState mt).prim = 0x11D#9 := by
  simp [readyState, polyOf]

theorem witness_EncodeOfDecodeIsTheWord :
    decode 0xA0000003#32 = .ok (.csrr 3#2) := by decide

theorem witness_OpcodeMapRowsDecideTheCommand :
    ((opcodeRow (Instr.expr 0#9).mnemonic).needs = .yes ∧ State.reset.built = false) ∧
    ((opcodeRow (Instr.build 0#8 true).mnemonic).needs = .mustBeZero ∧
      (readyState true).built = true) ∧
    (opcodeRow (Instr.csrr 0#2).mnemonic).needs = .no := ⟨⟨rfl, rfl⟩, ⟨rfl, rfl⟩, rfl⟩

theorem witness_EveryWordIsOneCommandOrIllegal :
    (opcodeRow .add).covers 0x1000FFFF#32 = true := by decide

theorem witness_ByteLinkIsLittleEndian : 0 < 4 ∧ 3 < 4 ∧ 0 < 2 ∧ 1 < 2 := by decide

theorem witness_StepRunsThePresentedCommand :
    (State.reset.present 0x100053CA#32).inFlight = none ∧
    (State.reset.present 0x100053CA#32).inputs = [.command 0x100053CA#32] ∧
    decode 0x100053CA#32 = .ok (.add 0x53#8 0xCA#8) := ⟨rfl, rfl, by decide⟩

theorem witness_BusyBlockHoldsThePresentedCommand :
    let s := { State.reset with
      inFlight := some 0x100053CA#32, inputs := [.command 0x20000101#32] }
    let u := { State.reset with inFlight := some 0x30100307#32, inputs := [.command 0x20000101#32] }
    s.inFlight = some 0x100053CA#32 ∧ s.inputs.head? ≠ some .reset ∧
    decode 0x100053CA#32 = .ok (.add 0x53#8 0xCA#8) ∧ (next? (step s)).isSome = true ∧
    u.inFlight = some 0x30100307#32 ∧ u.inputs.head? ≠ some .reset ∧
    (next? (step u)).isSome = true := by decide

theorem witness_IdleBlockWaits : State.reset.inFlight = none ∧ State.reset.inputs = [] := ⟨rfl, rfl⟩

theorem witness_ReservedOpcodeRaisesIllegalCommand :
    (State.reset.present 0x0FFFFFFF#32).inFlight = none ∧
    (State.reset.present 0x0FFFFFFF#32).inputs = [.command 0x0FFFFFFF#32] ∧
    ((0x0FFFFFFF#32).extractLsb' 28 4).toNat = 0 ∧ 0xB ≤ ((0xB0000000#32).extractLsb' 28 4).toNat ∧
    ∃ m, 0x30100307#32 &&& 0xF0000000#32 = (opcodeRow m).pattern ∧
      0x30100307#32 &&& (opcodeRow m).mask ≠ (opcodeRow m).pattern :=
  ⟨rfl, rfl, by decide, by decide, .mul, by decide⟩

theorem witness_IllegalCommandExactlyForReservedEncodings :
    (∀ m, 0xB0000000#32 &&& 0xF0000000#32 ≠ (opcodeRow m).pattern) ∧
    (∃ m, 0x9000011D#32 &&& 0xF0000000#32 = (opcodeRow m).pattern ∧
      0x9000011D#32 &&& (opcodeRow m).mask ≠ (opcodeRow m).pattern) ∧
    (∃ m, 0x900000FF#32 &&& 0xF0000000#32 = (opcodeRow m).pattern ∧
      0x900000FF#32 &&& (opcodeRow m).mask = (opcodeRow m).pattern) :=
  ⟨fun m => by cases m <;> decide, ⟨.build, by decide⟩, ⟨.build, by decide⟩⟩

theorem witness_EveryCommandGivesOneResponse :
    (∃ t, executeWord 0x1000FFFF#32 State.reset = .next t) ∧
    (∃ t, executeWord 0x00000000#32 State.reset = .next t) := ⟨⟨_, rfl⟩, ⟨_, rfl⟩⟩

theorem witness_AssertedResetAbandonsEverything :
    ({ readyState true with inFlight := some 0x30000307#32, inputs := [.reset] } : State).inputs =
      .reset :: [] := rfl

theorem witness_EveryStepKeepsTheInvariant :
    StateInv State.reset ∧ (∃ t, step State.reset = .next t) := ⟨reset_inv, _, rfl⟩

theorem witness_NoStepStops : StateInv (readyState true) ∧ StateInv State.reset :=
  ⟨readyState_inv true, reset_inv⟩

theorem witness_OnlyBuildWritesTheTables :
    ((Instr.csrr 0#2).mnemonic ≠ .build ∧ ∃ t, exec (.csrr 0#2) State.reset = .next t) ∧
    ((readyState true).built = true ∧ ∃ t, exec (.build 0#8 false) (readyState true) = .next t) ∧
    ((readyState true).inputs.head? ≠ some .reset ∧ ∃ t, step (readyState true) = .next t) :=
  ⟨⟨by decide, _, rfl⟩, ⟨rfl, _, rfl⟩, ⟨by simp [readyState, State.reset], _, rfl⟩⟩

theorem witness_DataResponsesDoNotDependOnOrder :
    Ready (readyState true) ∧ (Instr.mul 3#8 7#8).mnemonic ≠ .build ∧
    (Instr.mul 3#8 7#8).mnemonic ≠ .csrr ∧ ∃ t, exec (.build 0#8 true) (readyState true) = .next t :=
  ⟨readyState_ready true, by decide, by decide, _, rfl⟩

theorem witness_ErrsOnlyGrow :
    let s := ({ State.reset with errBits := 0x01#7 }).present 0x00000000#32
    s.inputs.head? ≠ some .reset ∧ (next? (step s)).isSome = true ∧ s.errs.getLsbD 0 = true := by
  decide

theorem witness_RaisingWritesStatusAndErrsOnly :
    ∃ t, executeWord 0x30000307#32 State.reset = .next t ∧
      t.responses = State.reset.responses ++ [.err .notBuilt] := ⟨_, rfl, rfl⟩

theorem witness_EachCommandRaisesItsOwnExceptions :
    (∃ t, exec (.inv 0#8) (readyState false) = .next t ∧
      t.responses = (readyState false).responses ++ [.err .zeroOperand]) ∧
    Exc.indexRange ∈ mayRaise .expr := ⟨⟨_, rfl, rfl⟩, by decide⟩

theorem witness_ProgramsRunToTheirEnd :
    let s := { State.reset with inputs := programInputs [0x00000000#32, 0x100053CA#32] }
    StateInv s ∧ s.inFlight = none ∧ s.inputs = programInputs [0x00000000#32, 0x100053CA#32] ∧
    [0x00000000#32, 0x100053CA#32][0]? = some 0x00000000#32 ∧
    [0x00000000#32, 0x100053CA#32][1]? = some 0x100053CA#32 :=
  ⟨⟨rfl, rfl, rfl, by decide, by simp [State.reset], fun _ => rfl, by simp [State.reset],
    by simp [State.reset]⟩, rfl, rfl, rfl, rfl⟩

theorem justReset_powerOn (ws : List CommandWord) :
    JustReset ws { State.reset with inputs := programInputs ws } := .inl rfl

theorem justReset_asserted (s : State) (ws : List CommandWord) :
    JustReset ws (s.assertReset (programInputs ws)) :=
  .inr ⟨{ s with inputs := .reset :: programInputs ws }, _, rfl, rfl, rfl⟩

/-- A state with a response, whose code STATUS holds, and an illegal word presented. -/
def responded : State :=
  ({ State.reset with
    status := 1#8, errBits := 0x01#7, responses := [.ok 5#8, .err .divByZero] }).present 0xB0000000#32

theorem witness_StatusIsTheLastResponsesCode :
    (StatusIsLast responded ∧ responded.inputs.head? ≠ some .reset ∧ ∃ t, step responded = .next t) ∧
    (JustReset [0xB0000000#32] (responded.assertReset (programInputs [0xB0000000#32])) ∧
      ∃ t, run 1 (responded.assertReset (programInputs [0xB0000000#32])) = .next t) ∧
    (JustReset [] { State.reset with inputs := programInputs [] } ∧
      ∃ t, run 0 { State.reset with inputs := programInputs [] } = .next t) := by
  refine ⟨⟨?_, by decide, _, rfl⟩, ⟨justReset_asserted _ _, _, rfl⟩, justReset_powerOn [], _, rfl⟩
  intro r hr
  cases hr
  decide

-- R26, R27: the step of `responded` raises code 6 and keeps the bit of code 1.
theorem test_status_and_errs_follow :
    outcome (step responded) = some ([0x0005#16, 0x0100#16, 0x0600#16], 6#8, 0x21#8) := by decide

theorem witness_ErrsRecordExactlyTheRaisedExceptions :
    (responded.inputs.head? ≠ some .reset ∧ ∃ t, step responded = .next t) ∧
    (JustReset [0xB0000000#32] { State.reset with inputs := programInputs [0xB0000000#32] } ∧
      ∃ t, run 1 { State.reset with inputs := programInputs [0xB0000000#32] } = .next t) ∧
    (JustReset [0xB0000000#32] (responded.assertReset (programInputs [0xB0000000#32])) ∧
      ∃ t, run 1 (responded.assertReset (programInputs [0xB0000000#32])) = .next t) ∧
    (∃ t, step { State.reset with errBits := 0x7F#7, inputs := [.reset] } = .next t) :=
  ⟨⟨by decide, _, rfl⟩, ⟨justReset_powerOn _, _, rfl⟩, ⟨justReset_asserted _ _, _, rfl⟩, _, rfl⟩

theorem witness_WalkStepDoublesAndReduces : (0x11D#9).getLsbD 8 = true := by decide

theorem witness_PrimitiveWalkVisitsEveryElementOnce :
    isPrimitive (walk (polyOf 0x1D#8)) = true ∧ 0 < 255 ∧ 254 < 255 ∧
    power (polyOf 0x1D#8) 0 = power (polyOf 0x1D#8) 0 ∧ 1#8 ≠ 0#8 :=
  ⟨default_primitive, by decide, by decide, rfl, by decide⟩

theorem witness_BuildFillsTheTables :
    State.reset.built = false ∧ isPrimitive (walk (0x100#9 ||| (0x1D#8).setWidth 9)) = true :=
  ⟨rfl, default_primitive⟩

theorem witness_BuildRaisesAlreadyBuiltOrNonPrimitive :
    (readyState true).built = true ∧ State.reset.built = false ∧
    (0x1C#8).toNat ∉ [0x1D, 0x2B, 0x2D, 0x4D, 0x5F, 0x63, 0x65, 0x69, 0x71, 0x87, 0x8D, 0xA9, 0xC3,
      0xCF, 0xE7, 0xF5] ∧
    (0xF5#8).toNat ∈ [0x1D, 0x2B, 0x2D, 0x4D, 0x5F, 0x63, 0x65, 0x69, 0x71, 0x87, 0x8D, 0xA9, 0xC3,
      0xCF, 0xE7, 0xF5] := ⟨rfl, rfl, by decide, by decide⟩

theorem witness_LogTableIsABijection :
    Ready (readyState false) ∧ 1#8 ≠ 0#8 ∧ 255#8 ≠ 0#8 ∧ 0 ≤ 254 ∧ 254 ≤ 254 :=
  ⟨readyState_ready false, by decide⟩

theorem witness_ExpTableHoldsThePowers : Ready (readyState false) ∧ 0 ≤ 509 ∧ 509 ≤ 509 :=
  ⟨readyState_ready false, by decide⟩

theorem witness_TablesInvertEachOther :
    Ready (readyState true) ∧ (readyState true).mode = true ∧ 255#8 ≠ 0#8 ∧ 509 ≤ 509 :=
  ⟨readyState_ready true, rfl, by decide⟩

-- The reserved-bit clauses of the statements about one command: a word for each format and each field.
theorem witness_reserved_bits :
    ((0x10010000#32).extractLsb' 28 4 = 0x1#4 ∧ (0x10010000#32).extractLsb' 16 12 ≠ 0#12) ∧
    ((0x28000000#32).extractLsb' 28 4 = 0x2#4 ∧ (0x28000000#32).extractLsb' 16 12 ≠ 0#12) ∧
    ((0x30010000#32).extractLsb' 28 4 = 0x3#4 ∧ (0x30010000#32).extractLsb' 16 12 ≠ 0#12) ∧
    ((0x48000000#32).extractLsb' 28 4 = 0x4#4 ∧ (0x48000000#32).extractLsb' 16 12 ≠ 0#12) ∧
    ((0x50010000#32).extractLsb' 28 4 = 0x5#4 ∧ (0x50010000#32).extractLsb' 16 12 ≠ 0#12) ∧
    ((0x60010000#32).extractLsb' 28 4 = 0x6#4 ∧ (0x60010000#32).extractLsb' 16 12 ≠ 0#12) ∧
    ((0x60000001#32).extractLsb' 28 4 = 0x6#4 ∧ (0x60000001#32).extractLsb' 0 8 ≠ 0#8) ∧
    ((0x78000000#32).extractLsb' 28 4 = 0x7#4 ∧ (0x78000000#32).extractLsb' 16 12 ≠ 0#12) ∧
    ((0x70000080#32).extractLsb' 28 4 = 0x7#4 ∧ (0x70000080#32).extractLsb' 0 8 ≠ 0#8) ∧
    ((0x80000200#32).extractLsb' 28 4 = 0x8#4 ∧ (0x80000200#32).extractLsb' 9 19 ≠ 0#19) ∧
    ((0xA0000004#32).extractLsb' 28 4 = 0xA#4 ∧ (0xA0000004#32).extractLsb' 2 26 ≠ 0#26) := by decide

-- Such a word raises, and a word without a reserved bit set does not.
theorem witness_reserved_bits_raise :
    outcome (executeWord 0x30100307#32 State.reset) = some ([0x0600#16], 6#8, 0x20#8) ∧
    outcome (executeWord 0x30000307#32 State.reset) = some ([0x0300#16], 3#8, 0x04#8) := by decide

theorem witness_MulRespondsFromTheTables :
    State.reset.built = false ∧ (Ready (readyState true) ∧ (readyState true).mode = true) ∧
    (Ready (readyState false) ∧ (readyState false).mode = false) ∧
    (0#8 = 0#8 ∨ 7#8 = 0#8) ∧ 0x8E#8 ≠ 0#8 :=
  ⟨rfl, ⟨readyState_ready true, rfl⟩, ⟨readyState_ready false, rfl⟩, by decide⟩

theorem witness_MulIsTheReducedCarrylessProduct :
    Ready (readyState true) ∧ Ready (readyState false) :=
  ⟨readyState_ready true, readyState_ready false⟩

theorem witness_MultiplyPathsAgree :
    Ready (readyState true) ∧ Ready (readyState false) ∧
    (readyState true).prim = (readyState false).prim ∧ (readyState true).mode = true ∧
    (readyState false).mode = false :=
  ⟨readyState_ready true, readyState_ready false, rfl, rfl, rfl⟩

theorem witness_DivRespondsOrRaises :
    State.reset.built = false ∧ ((readyState true).built = true ∧ 0#8 = 0#8) ∧
    (Ready (readyState true) ∧ 0x8E#8 ≠ 0#8 ∧ 1#8 ≠ 0#8) :=
  ⟨rfl, ⟨rfl, rfl⟩, readyState_ready true, by decide⟩

theorem witness_PowRespondsOrRaises :
    State.reset.built = false ∧ ((readyState true).built = true ∧ 0#8 = 0#8) ∧
    (Ready (readyState true) ∧ 0xFF#8 ≠ 0#8) := ⟨rfl, ⟨rfl, rfl⟩, readyState_ready true, by decide⟩

theorem witness_InvRespondsOrRaises :
    State.reset.built = false ∧ ((readyState true).built = true ∧ 0#8 = 0#8) ∧
    (Ready (readyState true) ∧ 1#8 ≠ 0#8) := ⟨rfl, ⟨rfl, rfl⟩, readyState_ready true, by decide⟩

theorem witness_IndicesStayInTheExpTable :
    Ready (readyState false) ∧ (readyState false).mode = false ∧ 0x8E#8 ≠ 0#8 ∧ 1#8 ≠ 0#8 :=
  ⟨readyState_ready false, rfl, by decide⟩

theorem witness_DivIsMulByTheInverse : Ready (readyState true) ∧ 0xFF#8 ≠ 0#8 :=
  ⟨readyState_ready true, by decide⟩

theorem witness_FieldLawsHold : Ready (readyState true) ∧ 0xFF#8 ≠ 0#8 :=
  ⟨readyState_ready true, by decide⟩

theorem witness_DocumentedPropertiesHold :
    Ready (readyState true) ∧ Ready (readyState false) ∧
    (readyState false).prim = (readyState true).prim ∧ (readyState true).mode = true ∧
    (readyState false).mode = false ∧ (readyState true).prim = 0x11D#9 ∧ 1#8 ≠ 0#8 :=
  ⟨readyState_ready true, readyState_ready false, rfl, rfl, rfl, readyState_prim true, by decide⟩

theorem witness_PowersCompose : Ready (readyState true) ∧ 0x8E#8 ≠ 0#8 ∧ 254 < 255 :=
  ⟨readyState_ready true, by decide⟩

theorem witness_LogrReadsTheStoredByte : State.reset.built = false ∧ Ready (readyState true) :=
  ⟨rfl, readyState_ready true⟩

theorem witness_ExprReadsTheEntryOrRaises :
    State.reset.built = false ∧ ((readyState true).built = true ∧ 509 < (510#9).toNat) ∧
    (Ready (readyState true) ∧ (509#9).toNat ≤ 509) :=
  ⟨rfl, ⟨rfl, by decide⟩, readyState_ready true, by decide⟩

theorem witness_NotBuiltBeforeAnyOperandCheck :
    State.reset.built = false ∧
    (Instr.add 0#8 0#8).mnemonic ∈ [Mnemonic.add, .sub, .csrr, .build] ∧
    ∃ t, exec (.add 0#8 0#8) State.reset = .next t := ⟨rfl, by decide, _, rfl⟩

theorem witness_TablesThatDoNotHoldStopTheModel :
    let s := { State.reset with built := true }
    let u := { s with log := [(5, 0xFF#8), (6, 254#8), (7, 0#8)] }
    s.built = true ∧ s.log.read (5#8).toNat = none ∧
    ((509#9).toNat ≤ 509 ∧ s.exp.read (509#9).toNat = none) ∧
    (({ s with mode := true } : State).mode = true ∧
      ({ s with mode := true } : State).mtab.read (256 * (255#8).toNat + (255#8).toNat) = none) ∧
    5#8 ≠ 0#8 ∧ 6#8 ≠ 0#8 ∧ 7#8 ≠ 0#8 ∧ s.mode = false ∧ u.mode = false ∧ u.built = true ∧
    NoLogarithm s.log 5#8 (.unspecifiedEntry .log) ∧ NoLogarithm u.log 5#8 .sentinelArithmetic ∧
    NoLogarithm u.log 4#8 (.unspecifiedEntry .log) ∧
    HasLogarithm u.log 6#8 254 ∧ HasLogarithm u.log 7#8 0 ∧
    u.exp.read (254 + 254) = none ∧ u.exp.read (254 + 255 - 0) = none ∧
    u.exp.read (254 * 255 % 255) = none ∧ u.exp.read (255 - 254) = none := by
  refine ⟨rfl, rfl, by decide, ⟨rfl, rfl⟩, by decide, by decide, by decide, rfl, rfl, rfl, .inl ⟨rfl, rfl⟩,
    .inr ⟨rfl, rfl⟩, .inl ⟨rfl, rfl⟩, ⟨254#8, rfl, by decide, rfl⟩, ⟨0#8, rfl, by decide, rfl⟩,
    rfl, rfl, rfl, rfl⟩

-- Log 4, log 5: the same states, stopped by name.
theorem test_tables_that_do_not_hold :
    let u := { State.reset with built := true, log := [(5, 0xFF#8), (6, 254#8), (7, 0#8)] }
    exec (.mul 6#8 5#8) u = .fault .sentinelArithmetic ∧
    exec (.div 6#8 7#8) u = .fault (.unspecifiedEntry .exp) := ⟨rfl, rfl⟩

theorem witness_AssemblerRefusesWideOperands :
    256 ≤ 256 ∧ 512 ≤ 512 ∧ 2 ≤ 2 ∧ 4 ≤ 4 ∧ AsmOp.pow ∈ [AsmOp.add, .sub, .mul, .div, .pow] ∧
    AsmOp.build ∈ [AsmOp.inv, .logr, .sqr, .build] := by decide

end Sys2Proof.Tests
end

/-! SUPPORT. What completing a word leaves in the registers and the tables, and the statements of
10_state.md that rest on it. -/

namespace Sys2Proof.Machine

/-! ## The step, as an equation and as cases -/

/-- An asserted reset comes before anything else in its step (R230). -/
theorem step_of_reset {s : State} {rest : List HostInput} (h : s.inputs = .reset :: rest) :
    step s = .next (s.assertReset rest) := by
  simp [step, advance, h]

/-- An assertion of reset clears ERRS (R27, R31). -/
@[simp] theorem State.assertReset_errs (s : State) (rest : List HostInput) :
    (s.assertReset rest).errs = 0x00#8 := by
  simp [State.errs]

/-- An accepted word that answers next has responded or raised, and only a BUILD that completes has
written anything before that (R9, R32, R201). -/
theorem executeWord_completes {w : CommandWord} {s t : State} (h : executeWord w s = .next t) :
    (∃ v, t = s.respond v) ∨ (∃ e, t = s.raise e) ∨
    (∃ poly mt, s.built = false ∧ isPrimitive (walk (polyOf poly)) = true ∧
      t = (s.commitTables poly mt (walk (polyOf poly))).respond 0x00#8) := by
  obtain ⟨i, -, hi⟩ | ⟨-, -, rfl⟩ := executeWord_next_cases h
  · obtain hv | ⟨e, -, rfl⟩ | ⟨poly, mt, -, hb, hp, rfl⟩ := exec_next_cases hi
    · exact .inl hv
    · exact .inr (.inl ⟨e, rfl⟩)
    · exact .inr (.inr ⟨poly, mt, hb, hp, rfl⟩)
  · exact .inr (.inl ⟨.illegalCommand, rfl⟩)

/-- A step that is no assertion of reset idles, or completes a word: the one in flight or the one
presented (R220, R240). -/
theorem step_next_cases_of_no_reset {s t : State} (hr : s.inputs.head? ≠ some .reset)
    (h : step s = .next t) :
    t = s ∨ (∃ w, executeWord w s = .next t) ∨
      ∃ w rest, s.inputs = .command w :: rest ∧ executeWord w (s.accept w rest) = .next t := by
  obtain ⟨rest, hi, -⟩ | ⟨w, -, -, hw⟩ | ⟨w, rest, -, hi, hw⟩ | ⟨-, -, rfl⟩ := step_next_cases h
  · exact absurd (by rw [hi]; rfl) hr
  · exact .inr (.inl ⟨w, hw⟩)
  · exact .inr (.inr ⟨w, rest, hi, hw⟩)
  · exact .inl rfl

/-- A run of one step more is a step that answers next, then the run from where it leads. -/
theorem run_succ_cases {n : Nat} {s t : State} (h : run (n + 1) s = .next t) :
    ∃ u, step s = .next u ∧ run n u = .next t := by
  rw [run] at h
  split at h
  · exact ⟨_, ‹_›, h⟩
  · cases h
  · cases h

/-! ## The part of the state that only BUILD writes (R32) -/

/-- LOG, EXP, MTAB, PRIM, BUILT and MODE are the same in both states. -/
structure SameTables (s t : State) : Prop where
  log : t.log = s.log
  exp : t.exp = s.exp
  mtab : t.mtab = s.mtab
  primLo : t.primLo = s.primLo
  built : t.built = s.built
  mode : t.mode = s.mode

theorem SameTables.refl (s : State) : SameTables s s := ⟨rfl, rfl, rfl, rfl, rfl, rfl⟩

theorem SameTables.trans {s t u : State} (h : SameTables s t) (h' : SameTables t u) :
    SameTables s u :=
  ⟨h'.log.trans h.log, h'.exp.trans h.exp, h'.mtab.trans h.mtab, h'.primLo.trans h.primLo,
    h'.built.trans h.built, h'.mode.trans h.mode⟩

theorem SameTables.prim {s t : State} (h : SameTables s t) : t.prim = s.prim :=
  State.prim_eq_of_primLo h.primLo

theorem sameTables_respond (s : State) (v : Byte) : SameTables s (s.respond v) :=
  ⟨rfl, rfl, rfl, rfl, rfl, rfl⟩

theorem sameTables_raise (s : State) (e : Exc) : SameTables s (s.raise e) :=
  ⟨rfl, rfl, rfl, rfl, rfl, rfl⟩

theorem sameTables_accept (s : State) (w : CommandWord) (rest : List HostInput) :
    SameTables s (s.accept w rest) :=
  ⟨rfl, rfl, rfl, rfl, rfl, rfl⟩

/-- Any command but BUILD, and BUILD while BUILT = 1, leaves the tables alone (R32, R205). -/
theorem exec_sameTables {i : Instr} {s t : State} (hi : i.mnemonic ≠ .build ∨ s.built = true)
    (h : exec i s = .next t) : SameTables s t := by
  obtain ⟨v, rfl⟩ | ⟨e, -, rfl⟩ | ⟨poly, mt, rfl, hb, -, -⟩ := exec_next_cases h
  · exact sameTables_respond s v
  · exact sameTables_raise s e
  · simp [Instr.mnemonic, hb] at hi

/-- While BUILT = 1 no word changes the tables (R32). -/
theorem executeWord_sameTables {w : CommandWord} {s t : State} (hb : s.built = true)
    (h : executeWord w s = .next t) : SameTables s t := by
  obtain ⟨i, -, hi⟩ | ⟨-, -, rfl⟩ := executeWord_next_cases h
  · exact exec_sameTables (.inr hb) hi
  · exact sameTables_raise s .illegalCommand

/-- While BUILT = 1 no step but an assertion of reset changes the tables (R32). -/
theorem step_sameTables {s t : State} (hb : s.built = true) (hr : s.inputs.head? ≠ some .reset)
    (h : step s = .next t) : SameTables s t := by
  obtain rfl | ⟨w, hw⟩ | ⟨w, rest, -, hw⟩ := step_next_cases_of_no_reset hr h
  · exact .refl t
  · exact executeWord_sameTables hb hw
  · exact (sameTables_accept s w rest).trans (executeWord_sameTables hb hw)

/-! ## The invariant -/

/-- With BUILT = 0, no code in STATUS and empty memories the invariant asks no more (R31). -/
theorem stateInv_assertReset (s : State) (rest : List HostInput) :
    StateInv (s.assertReset rest) where
  logCanonical := rfl
  expCanonical := rfl
  mtabCanonical := rfl
  statusLegal := by simp
  statusRecorded := by simp
  primUnbuilt := by simp
  modeBuilt := by simp
  tablesBuilt := by simp

/-- The invariant passes to a state with the same tables whose STATUS is legal and recorded. -/
theorem StateInv.of_sameTables {s t : State} (h : StateInv s) (ht : SameTables s t)
    (hl : t.status.toNat ≤ 7)
    (hr : t.status ≠ 0#8 → t.errs.getLsbD (t.status.toNat - 1) = true) : StateInv t where
  logCanonical := ht.log ▸ h.logCanonical
  expCanonical := ht.exp ▸ h.expCanonical
  mtabCanonical := ht.mtab ▸ h.mtabCanonical
  statusLegal := hl
  statusRecorded := hr
  primUnbuilt hb := ht.primLo ▸ h.primUnbuilt (ht.built ▸ hb)
  modeBuilt hm := ht.built ▸ h.modeBuilt (ht.mode ▸ hm)
  tablesBuilt hb :=
    (h.tablesBuilt (ht.built ▸ hb)).congr ht.primLo ht.log ht.exp ht.mtab ht.mode

theorem StateInv.accept {s : State} (h : StateInv s) (w : CommandWord) (rest : List HostInput) :
    StateInv (s.accept w rest) :=
  h.of_sameTables (sameTables_accept s w rest) h.statusLegal h.statusRecorded

theorem StateInv.respond {s : State} (h : StateInv s) (v : Byte) : StateInv (s.respond v) :=
  h.of_sameTables (sameTables_respond s v) (by simp) (by simp)

/-- The bit of the exception raised is set (R201). -/
theorem State.raise_errs_getLsbD (s : State) (e : Exc) :
    (s.raise e).errs.getLsbD (e.code.toNat - 1) = true := by
  simp [State.errs_getLsbD, Exc.errBit_getLsbD]

theorem StateInv.raise {s : State} (h : StateInv s) (e : Exc) : StateInv (s.raise e) :=
  h.of_sameTables (sameTables_raise s e) e.code_range.2 fun _ => s.raise_errs_getLsbD e

/-- Committing the tables of a primitive polynomial keeps the invariant (R110). -/
theorem StateInv.commitTables {s : State} (h : StateInv s) {poly : Byte} (mt : Bool)
    (hp : isPrimitive (walk (polyOf poly)) = true) :
    StateInv (s.commitTables poly mt (walk (polyOf poly))) where
  logCanonical := by simpa using logTable_wfIn _
  expCanonical := by simpa using expTable_wfIn _
  mtabCanonical := by
    cases mt with
    | false => simpa using h.mtabCanonical
    | true => simpa using mtabTable_wfIn _ _
  statusLegal := h.statusLegal
  statusRecorded := h.statusRecorded
  primUnbuilt := by simp
  modeBuilt := by simp
  tablesBuilt _ := tablesHold_commitTables s mt hp

theorem StateInv.of_executeWord {w : CommandWord} {s t : State} (h : StateInv s)
    (hw : executeWord w s = .next t) : StateInv t := by
  obtain ⟨v, rfl⟩ | ⟨e, rfl⟩ | ⟨poly, mt, -, hp, rfl⟩ := executeWord_completes hw
  · exact h.respond v
  · exact h.raise e
  · exact (h.commitTables mt hp).respond 0x00#8

theorem StateInv.of_step {s t : State} (h : StateInv s) (hs : step s = .next t) : StateInv t := by
  obtain ⟨rest, -, rfl⟩ | ⟨w, -, -, hw⟩ | ⟨w, rest, -, -, hw⟩ | ⟨-, -, rfl⟩ := step_next_cases hs
  · exact stateInv_assertReset s rest
  · exact h.of_executeWord hw
  · exact (h.accept w rest).of_executeWord hw
  · exact h

/-! ## What responses leave in STATUS and ERRS (R26, R27, R83) -/

/-- An exception adds its bit to ERRS (R201). -/
theorem errsOf_err (bits : BitVec 7) (e : Exc) (rs : List Response) :
    errsOf bits (.err e :: rs) = errsOf (bits ||| e.errBit) rs := rfl

theorem errsOf_append (bits : BitVec 7) (rs qs : List Response) :
    errsOf bits (rs ++ qs) = errsOf (errsOf bits rs) qs := by
  induction rs generalizing bits with
  | nil => rfl
  | cons r rs ih => cases r <;> exact ih _

/-- A bit of ERRS is set after the responses exactly if it was set before or its exception is one of
them (R27). -/
theorem errsOf_getLsbD (bits : BitVec 7) (rs : List Response) (e : Exc) :
    (errsOf bits rs).getLsbD (e.code.toNat - 1) = true ↔
      bits.getLsbD (e.code.toNat - 1) = true ∨ .err e ∈ rs := by
  induction rs generalizing bits with
  | nil => simp [errsOf]
  | cons r rs ih =>
    cases r with
    | ok v => simpa [errsOf] using ih bits
    | err f => simp [errsOf_err, ih, Exc.errBit_getLsbD, or_assoc]

/-- Every status code is a legal STATUS value (R26). -/
theorem Response.statusCode_le (r : Response) : r.statusCode.toNat ≤ 7 := by
  cases r with
  | ok v => simp [Response.statusCode, statusOk]
  | err e => exact e.code_range.2

/-- The block has gone from `s` to `t` with the responses `rs`: STATUS is the code of the last of them,
and ERRS records their exceptions. -/
structure Answers (s : State) (rs : List Response) (t : State) : Prop where
  responses : t.responses = s.responses ++ rs
  status : t.status = rs.getLast?.elim s.status Response.statusCode
  errBits : t.errBits = errsOf s.errBits rs

theorem Answers.refl (s : State) : Answers s [] s := ⟨by simp, rfl, rfl⟩

theorem Answers.trans {s t u : State} {rs qs : List Response} (h : Answers s rs t)
    (h' : Answers t qs u) : Answers s (rs ++ qs) u where
  responses := by rw [h'.responses, h.responses, List.append_assoc]
  status := by
    rw [h'.status, h.status, List.getLast?_append]
    cases qs.getLast? <;> rfl
  errBits := by rw [h'.errBits, h.errBits, errsOf_append]

/-- STATUS after at least one response is the upper byte of the last one (R26, R83). -/
theorem Answers.status_of_getLast? {s t : State} {rs : List Response} (h : Answers s rs t)
    {r : Response} (hr : rs.getLast? = some r) : t.status = r.word.extractLsb' 8 8 := by
  rw [h.status, hr, Response.word_status]
  rfl

/-- STATUS stays legal (R26). -/
theorem Answers.status_le {s t : State} {rs : List Response} (h : Answers s rs t)
    (hs : s.status.toNat ≤ 7) : t.status.toNat ≤ 7 := by
  rw [h.status]
  cases rs.getLast? with
  | none => exact hs
  | some r => exact r.statusCode_le

/-- A bit of ERRS is set afterwards exactly if it was set before or its exception is among the
responses (R27). -/
theorem Answers.errs_getLsbD {s t : State} {rs : List Response} (h : Answers s rs t) (e : Exc) :
    t.errs.getLsbD (e.code.toNat - 1) = true ↔
      s.errs.getLsbD (e.code.toNat - 1) = true ∨ .err e ∈ rs := by
  rw [State.errs_getLsbD, State.errs_getLsbD, h.errBits, errsOf_getLsbD]

/-- An accepted word that answers next gives exactly one response (R83). -/
theorem executeWord_answers {w : CommandWord} {s t : State} (h : executeWord w s = .next t) :
    ∃ r, Answers s [r] t := by
  obtain ⟨v, rfl⟩ | ⟨e, rfl⟩ | ⟨poly, mt, -, -, rfl⟩ := executeWord_completes h
  · exact ⟨.ok v, rfl, rfl, rfl⟩
  · exact ⟨.err e, rfl, rfl, rfl⟩
  · exact ⟨.ok 0x00#8, rfl, rfl, rfl⟩

/-- A step that is no assertion of reset leaves the state as it is, or gives one response. -/
theorem step_eq_or_answers {s t : State} (hr : s.inputs.head? ≠ some .reset)
    (h : step s = .next t) : t = s ∨ ∃ r, Answers s [r] t := by
  obtain rfl | ⟨w, hw⟩ | ⟨w, rest, -, hw⟩ := step_next_cases_of_no_reset hr h
  · exact .inl rfl
  · exact .inr (executeWord_answers hw)
  · obtain ⟨r, hresp, hstatus, herr⟩ := executeWord_answers hw
    exact .inr ⟨r, hresp, hstatus, herr⟩

theorem step_answers {s t : State} (hr : s.inputs.head? ≠ some .reset) (h : step s = .next t) :
    ∃ rs, Answers s rs t := by
  obtain rfl | ⟨r, hr⟩ := step_eq_or_answers hr h
  · exact ⟨[], .refl t⟩
  · exact ⟨[r], hr⟩

/-! ## Runs without an assertion of reset -/

/-- Completing a word leaves what the host presents (R240). -/
theorem executeWord_inputs {w : CommandWord} {s t : State} (h : executeWord w s = .next t) :
    t.inputs = s.inputs := by
  obtain ⟨v, rfl⟩ | ⟨e, rfl⟩ | ⟨poly, mt, -, -, rfl⟩ := executeWord_completes h <;> rfl

/-- What the host presents after a step is the rest of what it presented before. -/
theorem step_inputs_suffix {s t : State} (h : step s = .next t) : t.inputs <:+ s.inputs := by
  obtain ⟨rest, hi, rfl⟩ | ⟨w, -, -, hw⟩ | ⟨w, rest, -, hi, hw⟩ | ⟨-, -, rfl⟩ := step_next_cases h
  · rw [hi]; exact List.suffix_cons .reset rest
  · rw [executeWord_inputs hw]
  · rw [executeWord_inputs hw, hi]; exact List.suffix_cons (.command w) rest
  · exact List.suffix_refl t.inputs

theorem run_answers {n : Nat} {s t : State} (hr : .reset ∉ s.inputs) (h : run n s = .next t) :
    ∃ rs, Answers s rs t := by
  induction n generalizing s with
  | zero =>
    cases h
    exact ⟨[], .refl _⟩
  | succ n ih =>
    obtain ⟨u, hu, hrun⟩ := run_succ_cases h
    obtain ⟨rs, hrs⟩ := step_answers (fun hh => hr (List.mem_of_head? hh)) hu
    obtain ⟨qs, hqs⟩ := ih (fun hm => hr ((step_inputs_suffix hu).mem hm)) hrun
    exact ⟨rs ++ qs, hrs.trans hqs⟩

/-- A program holds no assertion of reset (R244). -/
theorem reset_not_mem_programInputs (ws : List CommandWord) : .reset ∉ programInputs ws := by
  simp [programInputs]

theorem JustReset.answers {ws : List CommandWord} {n : Nat} {u t : State}
    (h : JustReset ws u) (hrun : run n u = .next t) : ∃ rs, Answers u rs t := by
  obtain ⟨hi, -, -, -⟩ := h.fields
  exact run_answers (hi ▸ reset_not_mem_programInputs ws) hrun

/-! ## Commands that read the tables, while BUILT = 1 -/

theorem exec_logr_of_built {s : State} (hb : s.built = true) (a : Byte) :
    exec (.logr a) s = answer (readEntry .log s.log a.toNat) s := by
  simp [exec, execLogr, hb]

theorem exec_expr_of_built {s : State} (hb : s.built = true) {idx : BitVec 9}
    (hi : idx.toNat ≤ 509) : exec (.expr idx) s = answer (readEntry .exp s.exp idx.toNat) s := by
  simp [exec, execExpr, hb, Nat.not_lt.mpr hi]

theorem exec_mul_of_mode {s : State} (hb : s.built = true) (hm : s.mode = true) (a b : Byte) :
    exec (.mul a b) s = answer (readEntry .mtab s.mtab (256 * a.toNat + b.toNat)) s := by
  simp [exec, execMul, hb, hm]

theorem exec_mul_of_not_mode {s : State} (hb : s.built = true) (hm : s.mode = false) (a b : Byte) :
    exec (.mul a b) s = answer (mulLog s.log s.exp a b) s := by
  simp [exec, execMul, hb, hm]

theorem exec_div_of_nonzero {s : State} (hb : s.built = true) {a b : Byte} (ha : a ≠ 0#8)
    (hb0 : b ≠ 0#8) : exec (.div a b) s = answer (divLog s.log s.exp a b) s := by
  simp [exec, execDiv, hb, ha, hb0]

theorem exec_pow_of_nonzero {s : State} (hb : s.built = true) {a : Byte} (ha : a ≠ 0#8)
    (n : Byte) : exec (.pow a n) s = answer (powLog s.log s.exp a n) s := by
  simp [exec, execPow, hb, ha]

theorem exec_inv_of_nonzero {s : State} (hb : s.built = true) {a : Byte} (ha : a ≠ 0#8) :
    exec (.inv a) s = answer (invLog s.log s.exp a) s := by
  simp [exec, execInv, hb, ha]

section
variable {log exp : Memory} {a b : Byte} {la lb : Nat} {f : Fault}

/-! The first operand's logarithm is read first, so its error comes before the second's. -/

theorem mulLog_error_left (ha : a ≠ 0#8) (hb : b ≠ 0#8) (h : readLogarithm log a = .error f) :
    mulLog log exp a b = .error f := by
  simp [mulLog, ha, hb, h]

theorem mulLog_error_right (ha : a ≠ 0#8) (hb : b ≠ 0#8) (h : readLogarithm log a = .ok la)
    (h' : readLogarithm log b = .error f) : mulLog log exp a b = .error f := by
  simp [mulLog, ha, hb, h, h', -readLogarithm_ok]

theorem mulLog_of_logarithms (ha : a ≠ 0#8) (hb : b ≠ 0#8) (h : readLogarithm log a = .ok la)
    (h' : readLogarithm log b = .ok lb) : mulLog log exp a b = readEntry .exp exp (la + lb) := by
  simp [mulLog, ha, hb, h, h', -readLogarithm_ok]

theorem divLog_error_left (h : readLogarithm log a = .error f) :
    divLog log exp a b = .error f := by
  simp [divLog, h]

theorem divLog_error_right (h : readLogarithm log a = .ok la)
    (h' : readLogarithm log b = .error f) : divLog log exp a b = .error f := by
  simp [divLog, h, h', -readLogarithm_ok]

theorem divLog_of_logarithms (h : readLogarithm log a = .ok la) (h' : readLogarithm log b = .ok lb) :
    divLog log exp a b = readEntry .exp exp (la + 255 - lb) := by
  simp [divLog, h, h', -readLogarithm_ok]

theorem powLog_error (n : Byte) (h : readLogarithm log a = .error f) :
    powLog log exp a n = .error f := by
  simp [powLog, h]

theorem powLog_of_logarithm (n : Byte) (h : readLogarithm log a = .ok la) :
    powLog log exp a n = readEntry .exp exp (la * n.toNat % 255) := by
  simp [powLog, h, -readLogarithm_ok]

theorem invLog_error (h : readLogarithm log a = .error f) : invLog log exp a = .error f := by
  simp [invLog, h]

theorem invLog_of_logarithm (h : readLogarithm log a = .ok la) :
    invLog log exp a = readEntry .exp exp (255 - la) := by
  simp [invLog, h, -readLogarithm_ok]

end

/-- A command that would respond with an entry that has no value stops (log 4). -/
theorem answer_of_read_none {sp : TableSpace} {m : Memory} {i : Nat} {s : State}
    (h : m.read i = none) : answer (readEntry sp m i) s = .fault (.unspecifiedEntry sp) :=
  answer_fault.mpr (readEntry_error.mpr ⟨h, rfl⟩)

/-! ## The statements -/

/-- Settles O16: each way a step can end keeps the invariant (`StateInv.of_step`). -/
theorem everyStepKeepsTheInvariant : Obligations.EveryStepKeepsTheInvariant :=
  fun _ _ h hs => h.of_step hs

/-- Settles O25: every step but an assertion of reset answers (`step_eq_or_answers`), and so does
every program (`JustReset.answers`). -/
theorem statusIsTheLastResponsesCode : Obligations.StatusIsTheLastResponsesCode := by
  refine ⟨fun s t hlast hr h => ?_, fun s t hr h => ?_, fun ws u t hu hrun => ⟨?_, ?_, ?_⟩,
    fun _ => rfl⟩
  · obtain rfl | ⟨r, hans⟩ := step_eq_or_answers hr h
    · exact hlast
    · intro q hq
      obtain rfl : r = q := by simpa [hans.responses] using hq
      exact hans.status_of_getLast? rfl
  · exact (step_eq_or_answers hr h).imp_right fun ⟨r, hans⟩ =>
      ⟨r, hans.responses, hans.status_of_getLast? rfl⟩
  · obtain ⟨-, -, hstatus, -⟩ := hu.fields
    obtain ⟨rs, hans⟩ := hu.answers hrun
    exact hans.status_le (by simp [hstatus])
  · rintro rfl
    obtain ⟨-, -, hstatus, -⟩ := hu.fields
    cases hrun
    exact hstatus
  · obtain ⟨rs, hans⟩ := hu.answers hrun
    exact ⟨rs, hans.responses, fun r hr => hans.status_of_getLast? hr⟩

/-- Settles O26: the responses of a step or of a program say which bits of ERRS they set
(`Answers.errs_getLsbD`), and right after reset none is set. -/
theorem errsRecordExactlyTheRaisedExceptions : Obligations.ErrsRecordExactlyTheRaisedExceptions := by
  refine ⟨fun s t hr h => ?_, fun ws u t hu hrun => ?_, fun s t rest hi h => ?_, rfl, fun s => ?_⟩
  · obtain ⟨rs, hans⟩ := step_answers hr h
    exact ⟨rs, hans.responses, hans.errs_getLsbD⟩
  · obtain ⟨-, -, -, herr⟩ := hu.fields
    obtain ⟨rs, hans⟩ := hu.answers hrun
    exact ⟨rs, hans.responses, fun e => by rw [hans.errs_getLsbD, State.errs_getLsbD, herr]; simp⟩
  · rw [step_of_reset hi] at h
    cases h
    exact s.assertReset_errs rest
  · rw [State.errs_getLsbD]
    exact BitVec.getLsbD_of_ge s.errBits 7 le_rfl

/-- Settles O18, for commands by `exec_sameTables` and for steps by `step_sameTables`. -/
theorem onlyBuildWritesTheTables : Obligations.OnlyBuildWritesTheTables := by
  refine ⟨fun i s t hi h => ?_, fun s t hb hr h => ?_⟩
  · have hsame := exec_sameTables hi h
    exact ⟨hsame.log, hsame.exp, hsame.mtab, hsame.prim, hsame.built, hsame.mode⟩
  · have hsame := step_sameTables hb hr h
    exact ⟨hsame.log, hsame.exp, hsame.mtab, hsame.prim, hsame.built, hsame.mode⟩

/-- Settles O13: the values of R31, read off the fixed reset state. -/
theorem resetRegisters : Obligations.ResetRegisters :=
  ⟨rfl, rfl, rfl, rfl, rfl, rfl, rfl⟩

/-- Settles O15: power-on leaves what an assertion of reset leaves. -/
theorem invariantHoldsAfterReset : Obligations.InvariantHoldsAfterReset :=
  stateInv_assertReset State.reset []

/-- Settles O50: each command answers with one read of the tables, and that read is the error of the
first entry it lacks. -/
theorem tablesThatDoNotHoldStopTheModel : Obligations.TablesThatDoNotHoldStopTheModel := by
  refine fun s hb => ⟨fun a h => ?_, fun idx hi h => ?_, fun a b hm h => ?_,
    fun a b n ha hb0 => ⟨fun f hf => ?_, fun la f hla hf => ?_, fun la lb hla hlb => ?_⟩⟩
  · rw [exec_logr_of_built hb, answer_of_read_none h]
  · rw [exec_expr_of_built hb hi, answer_of_read_none h]
  · rw [exec_mul_of_mode hb hm, answer_of_read_none h]
  · rw [noLogarithm_iff] at hf
    rw [exec_div_of_nonzero hb ha hb0, exec_pow_of_nonzero hb ha, exec_inv_of_nonzero hb ha,
      divLog_error_left hf, powLog_error n hf, invLog_error hf]
    exact ⟨fun hm => by rw [exec_mul_of_not_mode hb hm, mulLog_error_left ha hb0 hf, answer],
      rfl, rfl, rfl⟩
  · rw [hasLogarithm_iff] at hla
    rw [noLogarithm_iff] at hf
    rw [exec_div_of_nonzero hb ha hb0, divLog_error_right hla hf]
    exact ⟨fun hm => by rw [exec_mul_of_not_mode hb hm, mulLog_error_right ha hb0 hla hf, answer],
      rfl⟩
  · rw [hasLogarithm_iff] at hla hlb
    rw [exec_div_of_nonzero hb ha hb0, exec_pow_of_nonzero hb ha, exec_inv_of_nonzero hb ha,
      divLog_of_logarithms hla hlb, powLog_of_logarithm n hla, invLog_of_logarithm hla]
    refine ⟨fun hm h => ?_, answer_of_read_none, answer_of_read_none, answer_of_read_none⟩
    rw [exec_mul_of_not_mode hb hm, mulLog_of_logarithms ha hb0 hla hlb, answer_of_read_none h]

end Sys2Proof.Machine

/-! SUPPORT. The tables of a primitive polynomial hold an entry wherever a command reads one, so
every command completes in a state with the invariant; and the statements of 20_memory.md, which rest
on it. -/

namespace Sys2Proof.Machine

/-! ## The walk of a primitive polynomial (R103, R108) -/

/-- The check of R108, on the powers. -/
theorem isPrimitive_walk_iff {p : BitVec 9} :
    isPrimitive (walk p) = true ↔
      (∀ i, 1 ≤ i → i ≤ 254 → power p i ≠ 1#8) ∧ power p 255 = 1#8 := by
  have hdrop : ((walk p).drop 1).take 254 = (List.range' 1 254).map (power p) := by
    refine List.ext_getElem? fun i => ?_
    by_cases hi : i < 254
    · rw [List.getElem?_take_of_lt hi, List.getElem?_drop, walk_get p (by omega)]
      simp [hi]
    · rw [List.getElem?_eq_none (by simp; omega), List.getElem?_eq_none (by simp; omega)]
  rw [isPrimitive, hdrop, walk_get p (by omega)]
  simp only [Bool.and_eq_true, List.all_map, List.all_eq_true, List.mem_range'_1,
    Function.comp_apply, bne_iff_ne, beq_iff_eq, Option.some.injEq]
  exact and_congr_left fun _ =>
    ⟨fun h i h1 h2 => h i ⟨h1, by omega⟩, fun h i ⟨h1, h2⟩ => h i h1 (by omega)⟩

/-- Two places of the walk that hold one value are followed by the same values. -/
theorem power_add_congr {p : BitVec 9} {i j : Nat} (h : power p i = power p j) (n : Nat) :
    power p (i + n) = power p (j + n) := by
  induction n with
  | zero => exact h
  | succ n ih => rw [← Nat.add_assoc, ← Nat.add_assoc, power_succ, power_succ, ih]

theorem power_add_of_zero {p : BitVec 9} {i : Nat} (h : power p i = 0#8) (n : Nat) :
    power p (i + n) = 0#8 := by
  induction n with
  | zero => exact h
  | succ n ih => rw [← Nat.add_assoc, power_succ, ih, walkStep_zero]

section
variable {p : BitVec 9} (hp : isPrimitive (walk p) = true)
include hp

/-- The walk never reaches 0, since it would stay there and not return to 1. -/
theorem power_ne_zero {i : Nat} (hi : i ≤ 255) : power p i ≠ 0#8 := fun h => by
  have h255 : power p (i + (255 - i)) = 0#8 := power_add_of_zero h _
  rw [Nat.add_sub_cancel' hi, (isPrimitive_walk_iff.mp hp).2] at h255
  exact absurd h255 (by decide)

/-- A value met twice, at `i < j`, would bring the walk from `i` to 1 after `255 - j` steps, before
its 255th. -/
theorem power_ne_of_lt {i j : Nat} (hij : i < j) (hj : j < 255) :
    power p i ≠ power p j := fun h => by
  obtain ⟨hne, hone⟩ := isPrimitive_walk_iff.mp hp
  have h255 := power_add_congr h (255 - j)
  rw [Nat.add_sub_cancel' hj.le, hone] at h255
  exact hne _ (by omega) (by omega) h255

/-- The powers 0..254 are different elements (R105). -/
theorem power_injective {i j : Nat} (hi : i < 255) (hj : j < 255) (h : power p i = power p j) :
    i = j := by
  obtain hlt | heq | hgt := Nat.lt_trichotomy i j
  · exact absurd h (power_ne_of_lt hp hlt hj)
  · exact heq
  · exact absurd h.symm (power_ne_of_lt hp hgt hi)

theorem walk_take_nodup : ((walk p).take 255).Nodup := by
  rw [walk_take]
  exact List.nodup_range.map_on fun i hi j hj =>
    power_injective hp (List.mem_range.mp hi) (List.mem_range.mp hj)

theorem zero_notMem_walk_take : 0#8 ∉ (walk p).take 255 := by
  rw [walk_take, List.mem_map]
  rintro ⟨i, hi, h⟩
  exact power_ne_zero hp (List.mem_range.mp hi).le h

/-- Every nonzero element is a power: 0, the 255 powers and one element more would be 257 bytes. -/
theorem exists_power_eq {x : Byte} (hx : x ≠ 0#8) : ∃ i < 255, power p i = x := by
  by_contra hno
  have hmem : x ∉ (walk p).take 255 := by
    rw [walk_take, List.mem_map]
    rintro ⟨i, hi, h⟩
    exact hno ⟨i, List.mem_range.mp hi, h⟩
  have hnodup : (x :: 0#8 :: (walk p).take 255).Nodup :=
    List.nodup_cons.mpr ⟨by simp [hx, hmem],
      List.nodup_cons.mpr ⟨zero_notMem_walk_take hp, walk_take_nodup hp⟩⟩
  have hle := hnodup.length_le_card
  rw [← FinEnum.card_eq_fintypeCard, FinEnum.card_bitVec] at hle
  simp at hle

/-- LOG of the i-th power holds i (R104). -/
theorem read_logTable_power {i : Nat} (hi : i < 255) :
    (logTable (walk p)).read (power p i).toNat = some (storeLog (some i)) := by
  have hget : ((walk p).take 255)[i]? = some (power p i) := by
    rw [List.getElem?_take_of_lt hi, walk_get p (by omega)]
  rw [logTable, read_writeLogs (walk_take_nodup hp) hget, Nat.zero_add]

/-- LOG of 0 keeps the sentinel (R104). -/
theorem read_logTable_zero : (logTable (walk p)).read 0 = some Config.sentinel := by
  have hne : ∀ x ∈ (walk p).take 255, x.toNat ≠ 0 := fun x hx h0 =>
    zero_notMem_walk_take hp ((BitVec.eq_of_toNat_eq h0 : x = 0#8) ▸ hx)
  rw [logTable, read_writeLogs_of_not_mem hne, Memory.read_ofBytes]
  rfl

end

/-! ## Table reads, while the tables hold what BUILT = 1 means (R24) -/

section
variable {s : State} (ht : TablesHold s)
include ht

/-- A nonzero element is the power whose number a rule reads as its logarithm (R104). -/
theorem TablesHold.readLogarithm {x : Byte} (hx : x ≠ 0#8) :
    ∃ l < 255, power s.prim l = x ∧ readLogarithm s.log x = .ok l := by
  obtain ⟨l, hl, rfl⟩ := exists_power_eq ht.primitive hx
  refine ⟨l, hl, rfl, readLogarithm_ok.mpr ⟨storeLog (some l), ?_, decodeLog_storeLog (by omega)⟩⟩
  rw [ht.log]
  exact read_logTable_power ht.primitive hl

/-- Every LOG entry has a value (R104). -/
theorem TablesHold.read_log (x : Byte) : ∃ v, s.log.read x.toNat = some v := by
  rw [ht.log]
  by_cases hx : x = 0#8
  · subst hx
    exact ⟨_, read_logTable_zero ht.primitive⟩
  · obtain ⟨l, hl, rfl⟩ := exists_power_eq ht.primitive hx
    exact ⟨_, read_logTable_power ht.primitive hl⟩

theorem TablesHold.read_exp {i : Nat} (hi : i < 510) :
    s.exp.read i = some (power s.prim (i % 255)) := by
  rw [ht.exp]
  exact read_expTable s.prim hi

theorem TablesHold.readEntry_exp {i : Nat} (hi : i < 510) :
    readEntry .exp s.exp i = .ok (power s.prim (i % 255)) :=
  readEntry_ok.mpr (ht.read_exp hi)

theorem TablesHold.exists_mulLog_ok (a b : Byte) : ∃ v, mulLog s.log s.exp a b = .ok v := by
  by_cases h0 : a = 0#8 ∨ b = 0#8
  · exact ⟨0#8, mulLog_ok.mpr (.inl ⟨h0, rfl⟩)⟩
  · obtain ⟨ha, hb⟩ := not_or.mp h0
    obtain ⟨la, hla, -, hra⟩ := ht.readLogarithm ha
    obtain ⟨lb, hlb, -, hrb⟩ := ht.readLogarithm hb
    exact ⟨_, mulLog_ok.mpr (.inr ⟨h0, la, lb, hra, hrb, ht.read_exp (by omega)⟩)⟩

theorem TablesHold.exists_divLog_ok {a b : Byte} (ha : a ≠ 0#8) (hb : b ≠ 0#8) :
    ∃ v, divLog s.log s.exp a b = .ok v := by
  obtain ⟨la, hla, -, hra⟩ := ht.readLogarithm ha
  obtain ⟨lb, hlb, -, hrb⟩ := ht.readLogarithm hb
  exact ⟨_, (divLog_of_logarithms hra hrb).trans (ht.readEntry_exp (by omega))⟩

theorem TablesHold.exists_powLog_ok {a : Byte} (ha : a ≠ 0#8) (n : Byte) :
    ∃ v, powLog s.log s.exp a n = .ok v := by
  obtain ⟨la, -, -, hra⟩ := ht.readLogarithm ha
  exact ⟨_, (powLog_of_logarithm n hra).trans (ht.readEntry_exp (by omega))⟩

theorem TablesHold.exists_invLog_ok {a : Byte} (ha : a ≠ 0#8) :
    ∃ v, invLog s.log s.exp a = .ok v := by
  obtain ⟨la, -, -, hra⟩ := ht.readLogarithm ha
  exact ⟨_, (invLog_of_logarithm hra).trans (ht.readEntry_exp (by omega))⟩

/-- MTAB, where MODE = 1, holds the log/exp product of every pair (R109). -/
theorem TablesHold.read_mtab (hm : s.mode = true) {a b v : Byte}
    (hv : mulLog s.log s.exp a b = .ok v) :
    s.mtab.read (256 * a.toNat + b.toNat) = some v := by
  rw [ht.mtab hm]
  exact read_mtabTable hv

end

theorem TablesHold.of_sameTables {s t : State} (h : TablesHold s) (hst : SameTables s t) :
    TablesHold t :=
  h.congr hst.primLo hst.log hst.exp hst.mtab hst.mode

/-! ## Commands that check an operand, while BUILT = 1 -/

section
variable {s : State} (hb : s.built = true)
include hb

/-- MUL responds with the log/exp product, which MTAB repeats, whatever MODE is (R133). -/
theorem exec_mul_of_mulLog (ht : TablesHold s) {a b v : Byte}
    (hv : mulLog s.log s.exp a b = .ok v) : exec (.mul a b) s = .next (s.respond v) := by
  cases hm : s.mode with
  | false => rw [exec_mul_of_not_mode hb hm, hv, answer]
  | true => rw [exec_mul_of_mode hb hm, readEntry_ok.mpr (ht.read_mtab hm hv), answer]

theorem exec_div_zero_left (b : Byte) : exec (.div 0#8 b) s = .next (s.respond 0x00#8) := by
  simp [exec, execDiv, hb]

theorem exec_div_zero_right {a : Byte} (ha : a ≠ 0#8) :
    exec (.div a 0#8) s = .next (s.raise .divByZero) := by
  simp [exec, execDiv, hb, ha]

theorem exec_pow_zero (n : Byte) : exec (.pow 0#8 n) s = .next (s.raise .zeroOperand) := by
  simp [exec, execPow, hb]

theorem exec_inv_zero : exec (.inv 0#8) s = .next (s.raise .zeroOperand) := by
  simp [exec, execInv, hb]

theorem exec_expr_of_high {idx : BitVec 9} (hi : 509 < idx.toNat) :
    exec (.expr idx) s = .next (s.raise .indexRange) := by
  simp [exec, execExpr, hb, hi]

theorem exec_build_of_built (poly : Byte) (mt : Bool) :
    exec (.build poly mt) s = .next (s.raise .alreadyBuilt) := by
  simp [exec, execBuild, hb]

end

/-! ## Every command completes -/

/-- The state in which a command has ended with the response, nothing else written (R9, R201). -/
def State.complete (s : State) : Response → State
  | .ok v => s.respond v
  | .err e => s.raise e

@[simp] theorem State.complete_responses (s : State) (r : Response) :
    (s.complete r).responses = s.responses ++ [r] := by
  cases r with
  | ok v => exact s.respond_responses v
  | err e => exact s.raise_responses e

/-- The command ends with one and the same response in every state with the tables of `s`. -/
def FixedByTables (i : Instr) (s : State) : Prop :=
  ∃ r, ∀ t, SameTables s t → exec i t = .next (t.complete r)

theorem FixedByTables.exists_exec_next {i : Instr} {s : State} (h : FixedByTables i s) :
    ∃ t, exec i s = .next t :=
  let ⟨r, hr⟩ := h; ⟨s.complete r, hr s (.refl s)⟩

section
variable {s : State} (hb : s.built = true) (ht : TablesHold s)
include hb ht

theorem mul_fixedByTables (a b : Byte) : FixedByTables (.mul a b) s := by
  obtain ⟨v, hv⟩ := ht.exists_mulLog_ok a b
  exact ⟨.ok v, fun t hst => exec_mul_of_mulLog (hst.built.trans hb) (ht.of_sameTables hst)
    (by rw [hst.log, hst.exp, hv])⟩

/-- A zero dividend is found before a zero divisor (R134). -/
theorem div_fixedByTables (a b : Byte) : FixedByTables (.div a b) s := by
  by_cases ha : a = 0#8
  · subst ha
    exact ⟨.ok 0x00#8, fun t hst => exec_div_zero_left (hst.built.trans hb) b⟩
  by_cases hb0 : b = 0#8
  · subst hb0
    exact ⟨.err .divByZero, fun t hst => exec_div_zero_right (hst.built.trans hb) ha⟩
  obtain ⟨v, hv⟩ := ht.exists_divLog_ok ha hb0
  refine ⟨.ok v, fun t hst => ?_⟩
  rw [exec_div_of_nonzero (hst.built.trans hb) ha hb0, hst.log, hst.exp, hv]
  rfl

theorem pow_fixedByTables (a n : Byte) : FixedByTables (.pow a n) s := by
  by_cases ha : a = 0#8
  · subst ha
    exact ⟨.err .zeroOperand, fun t hst => exec_pow_zero (hst.built.trans hb) n⟩
  obtain ⟨v, hv⟩ := ht.exists_powLog_ok ha n
  refine ⟨.ok v, fun t hst => ?_⟩
  rw [exec_pow_of_nonzero (hst.built.trans hb) ha, hst.log, hst.exp, hv]
  rfl

theorem inv_fixedByTables (a : Byte) : FixedByTables (.inv a) s := by
  by_cases ha : a = 0#8
  · subst ha
    exact ⟨.err .zeroOperand, fun t hst => exec_inv_zero (hst.built.trans hb)⟩
  obtain ⟨v, hv⟩ := ht.exists_invLog_ok ha
  refine ⟨.ok v, fun t hst => ?_⟩
  rw [exec_inv_of_nonzero (hst.built.trans hb) ha, hst.log, hst.exp, hv]
  rfl

theorem logr_fixedByTables (a : Byte) : FixedByTables (.logr a) s := by
  obtain ⟨v, hv⟩ := ht.read_log a
  refine ⟨.ok v, fun t hst => ?_⟩
  rw [exec_logr_of_built (hst.built.trans hb), hst.log, readEntry_ok.mpr hv]
  rfl

theorem expr_fixedByTables (idx : BitVec 9) : FixedByTables (.expr idx) s := by
  by_cases hi : idx.toNat ≤ 509
  · refine ⟨.ok (power s.prim (idx.toNat % 255)), fun t hst => ?_⟩
    rw [exec_expr_of_built (hst.built.trans hb) hi, hst.exp, ht.readEntry_exp (by omega)]
    rfl
  · exact ⟨.err .indexRange, fun t hst => exec_expr_of_high (hst.built.trans hb) (by omega)⟩

/-- While the tables are built, the response of every command but BUILD and CSRR is fixed by its
operands and the tables (R62). -/
theorem fixedByTables_of_data {i : Instr} (hbuild : i.mnemonic ≠ .build)
    (hcsrr : i.mnemonic ≠ .csrr) : FixedByTables i s := by
  cases i with
  | add a b => exact ⟨.ok (a ^^^ b), fun _ _ => rfl⟩
  | sub a b => exact ⟨.ok (a ^^^ b), fun _ _ => rfl⟩
  | mul a b => exact mul_fixedByTables hb ht a b
  | div a b => exact div_fixedByTables hb ht a b
  | pow a n => exact pow_fixedByTables hb ht a n
  | inv a => exact inv_fixedByTables hb ht a
  | logr a => exact logr_fixedByTables hb ht a
  | expr idx => exact expr_fixedByTables hb ht idx
  | build poly mt => exact absurd rfl hbuild
  | csrr sel => exact absurd rfl hcsrr

theorem exists_exec_next_of_built (i : Instr) : ∃ t, exec i s = .next t := by
  cases i with
  | build poly mt => exact ⟨_, exec_build_of_built hb poly mt⟩
  | csrr sel => exact ⟨_, rfl⟩
  | add | sub | mul | div | pow | inv | logr | expr =>
    exact (fixedByTables_of_data hb ht (by simp [Instr.mnemonic])
      (by simp [Instr.mnemonic])).exists_exec_next

end

/-- While BUILT = 0 no command reads a table, so none can stop (R28, R204). -/
theorem exists_exec_next_of_not_built {s : State} (hb : s.built = false) (i : Instr) :
    ∃ t, exec i s = .next t := by
  cases i with
  | build poly mt =>
    by_cases hp : isPrimitive (walk (polyOf poly)) = true <;> simp [exec, execBuild, hb, hp]
  | add | sub | csrr => exact ⟨_, rfl⟩
  | mul | div | pow | inv | logr | expr =>
    exact ⟨s.raise .notBuilt, by
      simp [exec, execMul, execDiv, execPow, execInv, execLogr, execExpr, hb]⟩

theorem StateInv.exists_exec_next {s : State} (h : StateInv s) (i : Instr) :
    ∃ t, exec i s = .next t := by
  cases hb : s.built with
  | false => exact exists_exec_next_of_not_built hb i
  | true => exact exists_exec_next_of_built hb (h.tablesBuilt hb) i

/-- From a state with the invariant every word, an illegal one too, completes (R81, R213). -/
theorem StateInv.exists_executeWord_next {s : State} (h : StateInv s) (w : CommandWord) :
    ∃ t, executeWord w s = .next t := by
  unfold executeWord
  split
  · exact h.exists_exec_next _
  · exact ⟨_, rfl⟩

/-! ## Programs (R57, R244) -/

/-- Completing a word ends it: the block is idle (R240). -/
theorem executeWord_inFlight {w : CommandWord} {s t : State} (h : executeWord w s = .next t) :
    t.inFlight = none := by
  obtain ⟨v, rfl⟩ | ⟨e, rfl⟩ | ⟨poly, mt, -, -, rfl⟩ := executeWord_completes h <;> rfl

theorem step_of_presented {s : State} {w : CommandWord} {rest : List HostInput}
    (hidle : s.inFlight = none) (hi : s.inputs = .command w :: rest) :
    step s = executeWord w (s.accept w rest) := by
  simp [step, advance, hidle, hi]

/-- A program's first word takes one step: one response, and an idle block with the invariant that
presents the rest (R57). -/
theorem StateInv.step_program {s : State} (h : StateInv s) (hidle : s.inFlight = none)
    {w : CommandWord} {ws : List CommandWord} (hi : s.inputs = programInputs (w :: ws)) :
    ∃ t r, step s = .next t ∧ executeWord w (s.accept w (programInputs ws)) = .next t ∧
      StateInv t ∧ t.inFlight = none ∧ t.inputs = programInputs ws ∧
      t.responses = s.responses ++ [r] := by
  obtain ⟨t, hw⟩ := (h.accept w (programInputs ws)).exists_executeWord_next w
  obtain ⟨r, hr⟩ := executeWord_answers hw
  have hs : step s = .next t := (step_of_presented hidle hi).trans hw
  exact ⟨t, r, hs, hw, h.of_step hs, executeWord_inFlight hw, executeWord_inputs hw, hr.responses⟩

/-! ## The byte-wide link (R53) -/

theorem wordOfBytes_extractLsb' (w : CommandWord) :
    wordOfBytes (w.extractLsb' 0 8) (w.extractLsb' 8 8) (w.extractLsb' 16 8) (w.extractLsb' 24 8) =
      w := by
  rw [wordOfBytes, BitVec.extractLsb'_append_extractLsb'_eq_extractLsb' (show 24 = 16 + 8 from rfl),
    BitVec.extractLsb'_append_extractLsb'_eq_extractLsb' (show 16 = 8 + 8 from rfl),
    BitVec.extractLsb'_append_extractLsb'_eq_extractLsb' (show 8 = 0 + 8 from rfl)]
  exact BitVec.extractLsb'_eq_self

/-! ## The statements -/

/-- Settles O19: no command changes built tables (`exec_sameTables`), and they fix the response of a
data command (`fixedByTables_of_data`). -/
theorem dataResponsesDoNotDependOnOrder : Obligations.DataResponsesDoNotDependOnOrder := by
  intro i j s t hs hbuild hcsrr hj
  obtain ⟨r, hr⟩ := fixedByTables_of_data hs.built (hs.inv.tablesBuilt hs.built) hbuild hcsrr
  exact ⟨s.complete r, t.complete r, r, hr s (.refl s), hr t (exec_sameTables (.inr hs.built) hj),
    s.complete_responses r, t.complete_responses r⟩

/-- Settles O24, by induction on the program: its first word takes one step
(`StateInv.step_program`), to a state the rest of the program runs from. -/
theorem programsRunToTheirEnd : Obligations.ProgramsRunToTheirEnd := by
  intro s ws
  induction ws generalizing s with
  | nil =>
    intro h hidle hi
    exact ⟨s, [], rfl, hi, by simp [State.busy, hidle], h, by simp, rfl, by simp⟩
  | cons w ws ih =>
    intro h hidle hi
    obtain ⟨u, r, hstep, hw, hu, huidle, hui, hur⟩ := h.step_program hidle hi
    obtain ⟨t, rs, hrun, hti, htbusy, ht, htr, hlen, hk⟩ := ih u hu huidle hui
    refine ⟨t, r :: rs, (run_succ_next hstep).trans hrun, hti, htbusy, ht, by simp [htr, hur],
      by simp [hlen], fun k x hx => ?_⟩
    cases k with
    | zero =>
      obtain rfl : w = x := by simpa using hx
      exact ⟨s, u, r, rfl, by simp [State.busy, hidle], hi, hw, run_succ_next hstep, hur, rfl⟩
    | succ k =>
      simpa only [run_succ_next hstep, List.drop_succ_cons, List.getElem?_cons_succ] using hk k x hx

/-- Settles O6: putting the four bytes together again gives the word (`wordOfBytes_extractLsb'`),
and each byte is listed at its own place. -/
theorem byteLinkIsLittleEndian : Obligations.ByteLinkIsLittleEndian := by
  refine ⟨fun w rest => ?_, fun w k hk => ?_, fun r k hk => ?_⟩
  · simp only [bytesOfWord, List.cons_append, List.nil_append, decodeBytes,
      wordOfBytes_extractLsb']
  · interval_cases k <;> rfl
  · interval_cases k <;> rfl

end Sys2Proof.Machine

/-! SUPPORT. A word is the word of an instruction exactly when it decodes to it, and a row of the opcode
map covers the words of its command; what the assembler does with numbers; and the statements of
30_encoding.md. -/

namespace Sys2Proof.Machine

/-! ## Parts of a word -/

theorem eq_iff_extractLsb'_eq {n : Nat} {w v : BitVec n} : w = v ↔ w.extractLsb' 0 n = v := by
  rw [BitVec.extractLsb'_eq_self]

/-- Bits that are a concatenation are read part by part; the high part may be one again. -/
theorem extractLsb'_eq_append_iff {l n m k : Nat} {w : BitVec l} {x : BitVec n} {y : BitVec m} :
    w.extractLsb' k (n + m) = x ++ y ↔ w.extractLsb' (k + m) n = x ∧ w.extractLsb' k m = y := by
  rw [← BitVec.extractLsb'_append_extractLsb'_eq_extractLsb' (rfl : k + m = k + m)]
  refine ⟨fun h => ⟨?_, ?_⟩, by rintro ⟨rfl, rfl⟩; rfl⟩
  · simpa only [BitVec.extractLsb'_append_eq_left] using congrArg (BitVec.extractLsb' m n) h
  · simpa only [BitVec.extractLsb'_append_eq_right] using congrArg (BitVec.extractLsb' 0 m) h

theorem extractLsb'_one_eq_ofBool_iff {n k : Nat} {w : BitVec n} {b : Bool} :
    w.extractLsb' k 1 = BitVec.ofBool b ↔ w.getLsbD k = b := by
  simp [BitVec.eq_of_getLsbD_eq_iff]

/-- Bits that a mask keeps are read off the masked word. -/
theorem extractLsb'_eq_of_and_eq {l k n : Nat} {v mask p : BitVec l} (h : v &&& mask = p)
    (hm : mask.extractLsb' k n = BitVec.allOnes n) : v.extractLsb' k n = p.extractLsb' k n := by
  rw [← h, BitVec.extractLsb'_and, hm, BitVec.and_allOnes]

/-! ## The words of each format, by their fields (R72-R76) -/

section
variable {w : CommandWord} {op : BitVec 4}

theorem eq_formatR_iff {a b : Byte} :
    w = formatR op a b ↔ fieldOp w = op ∧ reservedR w = true ∧ fieldA w = a ∧ fieldB w = b := by
  refine (eq_iff_extractLsb'_eq (n := 4 + 12 + 8 + 8)).trans ?_
  simp only [formatR, extractLsb'_eq_append_iff]
  simp [fieldOp, reservedR, fieldA, fieldB, and_assoc]

theorem eq_formatU_iff {a : Byte} :
    w = formatU op a ↔ fieldOp w = op ∧ reservedU w = true ∧ fieldA w = a := by
  refine (eq_iff_extractLsb'_eq (n := 4 + 12 + 8 + 8)).trans ?_
  simp only [formatU, extractLsb'_eq_append_iff]
  simp [fieldOp, reservedU, fieldA, and_assoc, and_left_comm, and_comm]

theorem eq_formatX_iff {idx : BitVec 9} :
    w = formatX op idx ↔ fieldOp w = op ∧ reservedX w = true ∧ fieldIdx w = idx := by
  refine (eq_iff_extractLsb'_eq (n := 4 + 19 + 9)).trans ?_
  simp only [formatX, extractLsb'_eq_append_iff]
  simp [fieldOp, reservedX, fieldIdx, and_assoc]

theorem eq_formatC_iff {mt : Bool} {poly : Byte} :
    w = formatC op mt poly ↔
      fieldOp w = op ∧ reservedC w = true ∧ fieldPoly w = poly ∧ fieldMt w = mt := by
  refine (eq_iff_extractLsb'_eq (n := 4 + 11 + 1 + 8 + 8)).trans ?_
  simp only [formatC, extractLsb'_eq_append_iff, extractLsb'_one_eq_ofBool_iff]
  simp [fieldOp, reservedC, fieldPoly, fieldMt, and_assoc, and_left_comm, and_comm]

theorem eq_formatS_iff {sel : BitVec 2} :
    w = formatS op sel ↔ fieldOp w = op ∧ reservedS w = true ∧ fieldSel w = sel := by
  refine (eq_iff_extractLsb'_eq (n := 4 + 26 + 2)).trans ?_
  simp only [formatS, extractLsb'_eq_append_iff]
  simp [fieldOp, reservedS, fieldSel, and_assoc]

/-! ## The words of each format, by the mask of its rows (R78)

The mask of a format keeps OP and every reserved bit, so what it leaves of a word says that OP is the
row's and that the reserved bits are 0. -/

variable {mask : CommandWord}

theorem fieldOp_of_and_eq (h : w &&& mask = op ++ 0#28)
    (hm : mask.extractLsb' 28 4 = BitVec.allOnes 4) : fieldOp w = op :=
  (extractLsb'_eq_of_and_eq h hm).trans BitVec.extractLsb'_append_eq_left

theorem extractLsb'_eq_zero_of_and_eq {k n : Nat} (h : w &&& mask = op ++ 0#28)
    (hm : mask.extractLsb' k n = BitVec.allOnes n) (hkn : k + n ≤ 28) :
    w.extractLsb' k n = 0#n := by
  rw [extractLsb'_eq_of_and_eq h hm, BitVec.extractLsb'_append_eq_of_add_le hkn]
  simp

theorem eq_formatR_of_and_eq (h : w &&& 0xFFFF0000#32 = op ++ 0#28) :
    w = formatR op (fieldA w) (fieldB w) :=
  eq_formatR_iff.mpr ⟨fieldOp_of_and_eq h rfl,
    by simp [reservedR, extractLsb'_eq_zero_of_and_eq h], rfl, rfl⟩

theorem eq_formatU_of_and_eq (h : w &&& 0xFFFF00FF#32 = op ++ 0#28) :
    w = formatU op (fieldA w) :=
  eq_formatU_iff.mpr ⟨fieldOp_of_and_eq h rfl,
    by simp [reservedU, extractLsb'_eq_zero_of_and_eq h], rfl⟩

theorem eq_formatX_of_and_eq (h : w &&& 0xFFFFFE00#32 = op ++ 0#28) :
    w = formatX op (fieldIdx w) :=
  eq_formatX_iff.mpr ⟨fieldOp_of_and_eq h rfl,
    by simp [reservedX, extractLsb'_eq_zero_of_and_eq h], rfl⟩

theorem eq_formatC_of_and_eq (h : w &&& 0xFFFEFF00#32 = op ++ 0#28) :
    w = formatC op (fieldMt w) (fieldPoly w) :=
  eq_formatC_iff.mpr ⟨fieldOp_of_and_eq h rfl,
    by simp [reservedC, extractLsb'_eq_zero_of_and_eq h], rfl, rfl⟩

theorem eq_formatS_of_and_eq (h : w &&& 0xFFFFFFFC#32 = op ++ 0#28) :
    w = formatS op (fieldSel w) :=
  eq_formatS_iff.mpr ⟨fieldOp_of_and_eq h rfl,
    by simp [reservedS, extractLsb'_eq_zero_of_and_eq h], rfl⟩

end

/-! ## Decoding and encoding (R80, R81) -/

section
variable {w : CommandWord}

theorem whenReservedZero_ok {ok : Bool} {i j : Instr} :
    whenReservedZero ok w i = .ok j ↔ ok = true ∧ i = j := by
  cases ok <;> simp [whenReservedZero]

/-- The arm of the decoder that the word's opcode names gives the instruction back. -/
theorem decode_of_eq_encode {i : Instr} (h : w = encode i) : decode w = .ok i := by
  cases i with
  | add a b | sub a b | mul a b | div a b | pow a b =>
    obtain ⟨hop, hres, ha, hb⟩ := eq_formatR_iff.mp h
    simp [decode, whenReservedZero, hop, hres, ha, hb]
  | inv a | logr a =>
    obtain ⟨hop, hres, ha⟩ := eq_formatU_iff.mp h
    simp [decode, whenReservedZero, hop, hres, ha]
  | expr idx =>
    obtain ⟨hop, hres, hidx⟩ := eq_formatX_iff.mp h
    simp [decode, whenReservedZero, hop, hres, hidx]
  | build poly mt =>
    obtain ⟨hop, hres, hpoly, hmt⟩ := eq_formatC_iff.mp h
    simp [decode, whenReservedZero, hop, hres, hpoly, hmt]
  | csrr sel =>
    obtain ⟨hop, hres, hsel⟩ := eq_formatS_iff.mp h
    simp [decode, whenReservedZero, hop, hres, hsel]

/-- Each arm of the decoder has looked at every bit of the word. -/
theorem eq_encode_of_decode {i : Instr} (h : decode w = .ok i) : w = encode i := by
  unfold decode at h
  split at h
  case h_1 hop | h_2 hop | h_3 hop | h_4 hop | h_5 hop =>
    obtain ⟨hres, rfl⟩ := whenReservedZero_ok.mp h
    exact eq_formatR_iff.mpr ⟨BitVec.eq_of_toNat_eq hop, hres, rfl, rfl⟩
  case h_6 hop | h_7 hop =>
    obtain ⟨hres, rfl⟩ := whenReservedZero_ok.mp h
    exact eq_formatU_iff.mpr ⟨BitVec.eq_of_toNat_eq hop, hres, rfl⟩
  case h_8 hop =>
    obtain ⟨hres, rfl⟩ := whenReservedZero_ok.mp h
    exact eq_formatX_iff.mpr ⟨BitVec.eq_of_toNat_eq hop, hres, rfl⟩
  case h_9 hop =>
    obtain ⟨hres, rfl⟩ := whenReservedZero_ok.mp h
    exact eq_formatC_iff.mpr ⟨BitVec.eq_of_toNat_eq hop, hres, rfl, rfl⟩
  case h_10 hop =>
    obtain ⟨hres, rfl⟩ := whenReservedZero_ok.mp h
    exact eq_formatS_iff.mpr ⟨BitVec.eq_of_toNat_eq hop, hres, rfl⟩
  case h_11 => cases h

/-- The decoder and the encoder are inverse to each other on the words that are commands (R81). -/
theorem decode_eq_ok_iff {i : Instr} : decode w = .ok i ↔ w = encode i :=
  ⟨eq_encode_of_decode, decode_of_eq_encode⟩

theorem decode_encode (i : Instr) : decode (encode i) = .ok i :=
  decode_of_eq_encode rfl

/-! ## The opcode map (R78) -/

/-- The word of an instruction lies in the row of its command. -/
theorem covers_encode (i : Instr) : (opcodeRow i.mnemonic).covers (encode i) = true := by
  cases i with
  | add a b => exact Laws.EncodesInRow.add a b
  | sub a b => exact Laws.EncodesInRow.sub a b
  | mul a b => exact Laws.EncodesInRow.mul a b
  | div a b => exact Laws.EncodesInRow.div a b
  | pow a n => exact Laws.EncodesInRow.pow a n
  | inv a => exact Laws.EncodesInRow.inv a
  | logr a => exact Laws.EncodesInRow.logr a
  | expr idx => exact Laws.EncodesInRow.expr idx
  | build poly mt => exact Laws.EncodesInRow.build poly mt
  | csrr sel => exact Laws.EncodesInRow.csrr sel

/-- A word in a command's row is the word of that command with the word's own fields. -/
theorem exists_encode_of_covers {m : Mnemonic} (h : (opcodeRow m).covers w = true) :
    ∃ i, w = encode i ∧ i.mnemonic = m := by
  have hw : w &&& (opcodeRow m).mask = (opcodeRow m).pattern := beq_iff_eq.mp h
  cases m with
  | add => exact ⟨.add (fieldA w) (fieldB w), eq_formatR_of_and_eq hw, rfl⟩
  | sub => exact ⟨.sub (fieldA w) (fieldB w), eq_formatR_of_and_eq hw, rfl⟩
  | mul => exact ⟨.mul (fieldA w) (fieldB w), eq_formatR_of_and_eq hw, rfl⟩
  | div => exact ⟨.div (fieldA w) (fieldB w), eq_formatR_of_and_eq hw, rfl⟩
  | pow => exact ⟨.pow (fieldA w) (fieldB w), eq_formatR_of_and_eq hw, rfl⟩
  | inv => exact ⟨.inv (fieldA w), eq_formatU_of_and_eq hw, rfl⟩
  | logr => exact ⟨.logr (fieldA w), eq_formatU_of_and_eq hw, rfl⟩
  | expr => exact ⟨.expr (fieldIdx w), eq_formatX_of_and_eq hw, rfl⟩
  | build => exact ⟨.build (fieldPoly w) (fieldMt w), eq_formatC_of_and_eq hw, rfl⟩
  | csrr => exact ⟨.csrr (fieldSel w), eq_formatS_of_and_eq hw, rfl⟩

/-- A row covers the words that decode to its command, and no other (R78). -/
theorem covers_iff {m : Mnemonic} :
    (opcodeRow m).covers w = true ↔ ∃ i, decode w = .ok i ∧ i.mnemonic = m := by
  constructor
  · intro h
    obtain ⟨i, rfl, hm⟩ := exists_encode_of_covers h
    exact ⟨i, decode_encode i, hm⟩
  · rintro ⟨i, hi, rfl⟩
    rw [decode_eq_ok_iff.mp hi]
    exact covers_encode i

/-- A word is illegal exactly when no row covers it (R81). -/
theorem decode_error_iff :
    (∃ why, decode w = .error why) ↔ ∀ m, (opcodeRow m).covers w = false := by
  constructor
  · rintro ⟨why, hwhy⟩ m
    simp [Bool.eq_false_iff, covers_iff, hwhy]
  · intro h
    cases hd : decode w with
    | error why => exact ⟨why, rfl⟩
    | ok i => exact absurd (covers_iff.mpr ⟨i, hd, rfl⟩) (by simp [h])

end

/-! ## The rows' need of BUILT (R78) -/

theorem exec_of_needs_built {i : Instr} {s : State} (hi : (opcodeRow i.mnemonic).needs = .yes)
    (hb : s.built = false) : exec i s = .next (s.raise .notBuilt) := by
  cases i with
  | add | sub | build | csrr => cases hi
  | mul | div | pow | inv | logr | expr =>
    simp [exec, execMul, execDiv, execPow, execInv, execLogr, execExpr, hb]

theorem exec_of_needs_not_built {i : Instr} {s : State}
    (hi : (opcodeRow i.mnemonic).needs = .mustBeZero) (hb : s.built = true) :
    exec i s = .next (s.raise .alreadyBuilt) := by
  cases i with
  | build poly mt => exact exec_build_of_built hb poly mt
  | add | sub | mul | div | pow | inv | logr | expr | csrr => cases hi

theorem exists_exec_respond_of_no_need {i : Instr} (hi : (opcodeRow i.mnemonic).needs = .no)
    (s : State) : ∃ v, exec i s = .next (s.respond v) := by
  cases i with
  | add a b => exact ⟨a ^^^ b, rfl⟩
  | sub a b => exact ⟨a ^^^ b, rfl⟩
  | csrr sel => exact ⟨s.readControl sel, rfl⟩
  | mul | div | pow | inv | logr | expr | build => cases hi

/-! ## Illegal words (R79, R80, R207) -/

section
variable {w : CommandWord}

/-- Looking a row up by its column "match" finds that row. -/
theorem opcodeTable_find_pattern (m : Mnemonic) :
    opcodeTable.find? (·.pattern == (opcodeRow m).pattern) = some (opcodeRow m) := by
  cases m <;> rfl

theorem opcodeRow_mnemonic (m : Mnemonic) : (opcodeRow m).mnemonic = m := by
  cases m <;> rfl

/-- The column "match" tells the rows apart. -/
theorem opcodeRow_pattern_injective {m n : Mnemonic}
    (h : (opcodeRow m).pattern = (opcodeRow n).pattern) : m = n := by
  have hrow : some (opcodeRow m) = some (opcodeRow n) := by
    rw [← opcodeTable_find_pattern m, h, opcodeTable_find_pattern n]
  rw [← opcodeRow_mnemonic m, Option.some.inj hrow, opcodeRow_mnemonic n]

/-- A word in a row has the row's opcode. -/
theorem opcode_eq_of_covers {m : Mnemonic} (h : (opcodeRow m).covers w = true) :
    w &&& 0xF0000000#32 = (opcodeRow m).pattern := by
  have hmask : (opcodeRow m).mask &&& 0xF0000000#32 = 0xF0000000#32 := by cases m <;> rfl
  have hpat : (opcodeRow m).pattern &&& 0xF0000000#32 = (opcodeRow m).pattern := by
    cases m <;> rfl
  calc w &&& 0xF0000000#32 = w &&& (opcodeRow m).mask &&& 0xF0000000#32 := by
        rw [BitVec.and_assoc, hmask]
    _ = (opcodeRow m).pattern := by rw [beq_iff_eq.mp h, hpat]

/-- The opcodes of the rows are 0x1 to 0xA. -/
theorem fieldOp_of_covers {m : Mnemonic} (h : (opcodeRow m).covers w = true) :
    0 < (fieldOp w).toNat ∧ (fieldOp w).toNat < 0xB := by
  have hop : fieldOp w = fieldOp (opcodeRow m).pattern :=
    extractLsb'_eq_of_and_eq (opcode_eq_of_covers h) rfl
  rw [hop]
  cases m <;> decide

/-- A reserved opcode is no row's, and a word with a row's opcode and one of that row's reserved bits set
is not in that row, nor in another, whose opcode would differ (R79, R80). -/
theorem not_covers_of_reserved {n : Mnemonic}
    (hw : (fieldOp w).toNat = 0 ∨ 0xB ≤ (fieldOp w).toNat ∨
      ∃ m, w &&& 0xF0000000#32 = (opcodeRow m).pattern ∧
        w &&& (opcodeRow m).mask ≠ (opcodeRow m).pattern) :
    (opcodeRow n).covers w = false := by
  refine Bool.eq_false_iff.mpr fun hn => ?_
  have hrange := fieldOp_of_covers hn
  obtain h0 | hB | ⟨m, hop, hres⟩ := hw
  · omega
  · omega
  · obtain rfl : m = n := opcodeRow_pattern_injective (hop.symm.trans (opcode_eq_of_covers hn))
    exact hres (beq_iff_eq.mp hn)

theorem executeWord_of_illegal {why : Illegal} (h : decode w = .error why) (s : State) :
    executeWord w s = .next (s.raise .illegalCommand) := by
  simp [executeWord, h]

end

/-! ## The response word (R83) -/

theorem Response.word_ok_data (v : Byte) : (Response.ok v).word.extractLsb' 0 8 = v :=
  BitVec.extractLsb'_append_eq_right

theorem Response.word_err_data (e : Exc) : (Response.err e).word.extractLsb' 0 8 = 0x00#8 :=
  BitVec.extractLsb'_append_eq_right

/-! ## The assembler (R84, R85) -/

@[simp] theorem asmField_toNat {width : Nat} (x : BitVec width) :
    asmField width x.toNat = .ok x := by
  simp [asmField, fitsField, x.isLt]

theorem asmField_of_wide {width n : Nat} (h : 2 ^ width ≤ n) :
    asmField width n = .error .operandTooWide := by
  simp [asmField, fitsField, h]

theorem asmPair_toNat (mk : Byte → Byte → Instr) (a b : Byte) :
    asmPair mk a.toNat b.toNat = .ok (encode (mk a b)) := by
  simp [asmPair]

theorem asmOne_toNat {width : Nat} (mk : BitVec width → Instr) (a : BitVec width) :
    asmOne width mk a.toNat = .ok (encode (mk a)) := by
  simp [asmOne]

theorem asmBuild_toNat (poly : Byte) (mt : Bool) :
    asmBuild poly.toNat mt.toNat = .ok (encode (.build poly mt)) := by
  have hmt : asmField 1 mt.toNat = .ok (BitVec.ofBool mt) := by
    rw [← BitVec.toNat_ofBool, asmField_toNat]
  simp [asmBuild, hmt]

/-- Of two operands one of which is too wide, the first is refused, or it fits and the second is
refused. -/
theorem asmField_pair_of_wide {m n a b : Nat} (h : 2 ^ m ≤ a ∨ 2 ^ n ≤ b) :
    asmField m a = .error .operandTooWide ∨
      (∃ x, asmField m a = .ok x) ∧ asmField n b = .error .operandTooWide := by
  by_cases ha : 2 ^ m ≤ a
  · exact .inl (asmField_of_wide ha)
  · exact .inr ⟨⟨BitVec.ofNat m a, by simpa [asmField, fitsField] using ha⟩,
      asmField_of_wide (h.resolve_left ha)⟩

theorem asmPair_of_wide {mk : Byte → Byte → Instr} {a b : Nat} (h : 256 ≤ a ∨ 256 ≤ b) :
    asmPair mk a b = .error .operandTooWide := by
  obtain ha | ⟨⟨x, ha⟩, hb⟩ := asmField_pair_of_wide (m := 8) (n := 8) h
  · simp [asmPair, ha]
  · simp [asmPair, ha, hb]

theorem asmBuild_of_wide {poly mt : Nat} (h : 256 ≤ poly ∨ 2 ≤ mt) :
    asmBuild poly mt = .error .operandTooWide := by
  obtain hp | ⟨⟨x, hp⟩, hm⟩ := asmField_pair_of_wide (m := 8) (n := 1) h
  · simp [asmBuild, hp]
  · simp [asmBuild, hp, hm]

theorem asmOne_of_wide {width a : Nat} {mk : BitVec width → Instr} (h : 2 ^ width ≤ a) :
    asmOne width mk a = .error .operandTooWide := by
  simp [asmOne, asmField_of_wide h]

/-! ## The statements -/

/-- Settles O1, since the arm that the opcode names reads back the fields of the format
(`decode_of_eq_encode`). -/
theorem decodeOfEncodeIsTheInstruction : Obligations.DecodeOfEncodeIsTheInstruction :=
  decode_encode

/-- Settles O2, since each arm of the decoder checks every bit it does not keep
(`eq_encode_of_decode`). -/
theorem encodeOfDecodeIsTheWord : Obligations.EncodeOfDecodeIsTheWord :=
  fun _ _ h => (eq_encode_of_decode h).symm

/-- Settles O3: `covers_iff` for the rows' words, and one lemma for each entry of the column
"needs BUILT". -/
theorem opcodeMapRowsDecideTheCommand : Obligations.OpcodeMapRowsDecideTheCommand :=
  ⟨fun _ _ => beq_iff_eq.symm.trans covers_iff, fun _ _ => exec_of_needs_built,
    fun _ _ => exec_of_needs_not_built, fun _ s hi => exists_exec_respond_of_no_need hi s⟩

/-- Settles O4: two rows that cover a word share its opcode, and rows differ in their opcodes
(`opcodeRow_pattern_injective`). -/
theorem everyWordIsOneCommandOrIllegal : Obligations.EveryWordIsOneCommandOrIllegal := by
  refine fun w => ⟨fun m n hm hn => opcodeRow_pattern_injective ?_, decode_error_iff⟩
  exact (opcode_eq_of_covers hm).symm.trans (opcode_eq_of_covers hn)

/-- Settles O12: a word that answers next gives one response (`executeWord_answers`), whose code is the
new STATUS. -/
theorem everyCommandGivesOneResponse : Obligations.EveryCommandGivesOneResponse := by
  intro w s t h
  obtain ⟨r, hans⟩ := executeWord_answers h
  refine ⟨r, hans.responses, (hans.status_of_getLast? rfl).symm, ?_, ?_⟩
  · rintro v rfl
    exact ⟨hans.status, Response.word_ok_data v⟩
  · rintro e rfl
    exact ⟨hans.status, Response.word_err_data e⟩

/-- Settles O5, by running the decoder on the six words. -/
theorem writtenWordsDecode : Obligations.WrittenWordsDecode :=
  ⟨by decide, by decide, by decide, by decide, by decide, .reservedBits 0x3#4, by decide⟩

/-- Settles O10: no row covers such a word (`not_covers_of_reserved`), so it is illegal, and the block
accepts and raises in one step. -/
theorem reservedOpcodeRaisesIllegalCommand : Obligations.ReservedOpcodeRaisesIllegalCommand := by
  intro s w rest hidle hi hw
  obtain ⟨why, hwhy⟩ := decode_error_iff.mpr fun _ => not_covers_of_reserved hw
  rw [step_of_presented hidle hi, executeWord_of_illegal hwhy, hidle]
  rfl

/-- Settles O52: a number read off a field fits it (`asmField_toNat`). -/
theorem assemblerGivesTheWordOfACommand : Obligations.AssemblerGivesTheWordOfACommand := by
  refine ⟨fun i => ?_, fun _ => rfl⟩
  cases i with
  | add | sub | mul | div | pow => exact asmPair_toNat _ _ _
  | inv | logr | expr | csrr => exact asmOne_toNat _ _
  | build poly mt => exact asmBuild_toNat poly mt

/-- Settles O53: each form puts its operands through `asmField`, which refuses a wide one
(`asmField_of_wide`). -/
theorem assemblerRefusesWideOperands : Obligations.AssemblerRefusesWideOperands := by
  refine ⟨fun a b h op hop => ?_, fun a h op hop => ?_, fun _ => asmOne_of_wide (width := 9),
    fun _ _ => asmBuild_of_wide, fun _ => asmOne_of_wide (width := 2)⟩
  · fin_cases hop <;> exact asmPair_of_wide h
  · fin_cases hop
    · exact asmOne_of_wide h
    · exact asmOne_of_wide h
    · exact asmPair_of_wide (.inl h)
    · exact asmBuild_of_wide (.inl h)

/-- Settles O54: the assembler gives a pseudo-instruction by its expansion, and 32 bits fit the word of
`.word` (`asmField_toNat`). -/
theorem pseudoInstructionsExpand : Obligations.PseudoInstructionsExpand :=
  ⟨rfl, fun _ => rfl, fun _ => rfl, asmField_toNat⟩

end Sys2Proof.Machine

/-! SUPPORT. The walk step on numbers and the polynomials whose walk is primitive; what the built tables
hold; the carry-less product of R114 as the product of powers of x; and the statements of
40_table_generation.md, which rest on it. -/

namespace Sys2Proof.Machine

/-! ## The walk step on numbers (R102) -/

theorem setWidth_shiftLeft_one_toNat (x : Byte) : (x.setWidth 9 <<< 1).toNat = 2 * x.toNat := by
  have hx := x.isLt
  simp [Nat.shiftLeft_eq]
  omega

/-- Bit 8 of the doubled element says that it has reached 256. -/
theorem setWidth_shiftLeft_one_getLsbD_eight (x : Byte) :
    (x.setWidth 9 <<< 1).getLsbD 8 = decide (256 ≤ 2 * x.toNat) := by
  rw [← setWidth_shiftLeft_one_toNat, ← BitVec.msb_eq_getLsbD_last, BitVec.msb_eq_decide]

/-- The XOR clears bit 8, so dropping it changes nothing. -/
theorem walkStep_toNat {p : BitVec 9} (hp : p.getLsbD 8 = true) (x : Byte) :
    (walkStep p x).toNat =
      if 256 ≤ 2 * x.toNat then (2 * x.toNat) ^^^ p.toNat else 2 * x.toNat := by
  have hbit := setWidth_shiftLeft_one_getLsbD_eight x
  have hnat := setWidth_shiftLeft_one_toNat x
  simp only [walkStep, hbit, decide_eq_true_eq]
  split
  next h =>
    have hclear : ((x.setWidth 9 <<< 1) ^^^ p).msb = false := by
      rw [BitVec.msb_eq_getLsbD_last, BitVec.getLsbD_xor, hbit, hp]
      simp [h]
    have hlt := BitVec.toNat_lt_of_msb_false hclear
    rw [BitVec.toNat_setWidth, Nat.mod_eq_of_lt hlt, BitVec.toNat_xor, hnat]
  next h =>
    rw [BitVec.toNat_setWidth, hnat]
    omega

/-! ## The polynomials that pass the check (R108) -/

/-- The 16 polynomials of R108, by POLY. -/
def primitivePolys : List Nat :=
  [0x1D, 0x2B, 0x2D, 0x4D, 0x5F, 0x63, 0x65, 0x69, 0x71, 0x87, 0x8D, 0xA9, 0xC3, 0xCF, 0xE7, 0xF5]

/-- The walk step on numbers, with the tests as `Bool`s so that the kernel computes them on numerals. -/
def stepNat (p x : Nat) : Nat := bif Nat.ble 256 (2 * x) then (2 * x) ^^^ p else 2 * x

/-- The walk on numbers reaches 1 after `n` steps from `x`, and not before. -/
def reachesOneAfter (p : Nat) : Nat → Nat → Bool
  | 0, x => Nat.beq x 1
  | n + 1, x => !Nat.beq x 1 && reachesOneAfter p n (stepNat p x)

theorem power_one (p : BitVec 9) : power p 1 = 2#8 := by
  simp [power, walkStep]

theorem stepNat_toNat {p : BitVec 9} (hp : p.getLsbD 8 = true) (x : Byte) :
    stepNat p.toNat x.toNat = (walkStep p x).toNat := by
  simp only [walkStep_toNat hp, stepNat, Bool.cond_eq_ite, Nat.ble_eq]

theorem toNat_beq_one {x : Byte} : Nat.beq x.toNat 1 = true ↔ x = 1#8 := by
  rw [Nat.beq_eq, ← BitVec.toNat_inj]
  rfl

theorem reachesOneAfter_power {p : BitVec 9} (hp : p.getLsbD 8 = true) (n k : Nat) :
    reachesOneAfter p.toNat n (power p k).toNat = true ↔
      (∀ i < n, power p (k + i) ≠ 1#8) ∧ power p (k + n) = 1#8 := by
  induction n generalizing k with
  | zero => simp [reachesOneAfter, toNat_beq_one, -Nat.beq_eq]
  | succ n ih =>
    rw [reachesOneAfter, Bool.and_eq_true, Bool.not_eq_true', Bool.eq_false_iff, Ne, toNat_beq_one,
      stepNat_toNat hp, ← power_succ, ih, Nat.forall_lt_succ_left, and_assoc]
    simp only [Nat.add_assoc, Nat.add_comm 1, Nat.add_zero, ne_eq]

theorem polyOf_getLsbD_eight (poly : Byte) : (polyOf poly).getLsbD 8 = true := by
  simp [polyOf]

theorem polyOf_toNat (poly : Byte) : (polyOf poly).toNat = 256 ||| poly.toNat := by
  simp [polyOf, Nat.mod_eq_of_lt (poly.isLt.trans (by omega : 256 < 512))]

/-- The check of R108, computed on numbers. -/
theorem isPrimitive_iff_reachesOneAfter (poly : Byte) :
    isPrimitive (walk (polyOf poly)) = true ↔
      reachesOneAfter (256 ||| poly.toNat) 254 2 = true := by
  have h := reachesOneAfter_power (polyOf_getLsbD_eight poly) 254 1
  rw [polyOf_toNat, power_one] at h
  rw [isPrimitive_walk_iff]
  refine Iff.trans (and_congr_left fun _ => ?_) h.symm
  exact ⟨fun hne i hi => hne _ (by omega) (by omega), fun hne i h1 hi => by
    simpa [Nat.add_sub_cancel' h1] using hne (i - 1) (by omega)⟩

/-- The walk of each of the 256 polynomials, computed. -/
theorem filter_reachesOneAfter :
    (List.range 256).filter (fun n => reachesOneAfter (256 ||| n) 254 2) = primitivePolys := by
  decide +kernel

theorem isPrimitive_iff_mem (poly : Byte) :
    isPrimitive (walk (polyOf poly)) = true ↔ poly.toNat ∈ primitivePolys := by
  rw [isPrimitive_iff_reachesOneAfter, ← filter_reachesOneAfter, List.mem_filter, List.mem_range]
  exact (and_iff_right poly.isLt).symm

/-! ## More about the powers (R105, R107) -/

section
variable {p : BitVec 9} (hp : isPrimitive (walk p) = true)
include hp

/-- The walk starts over after 255 steps. -/
theorem power_periodic : Function.Periodic (power p) 255 := fun i => by
  have h : power p 255 = power p 0 := (isPrimitive_walk_iff.mp hp).2
  rw [Nat.add_comm, power_add_congr h, Nat.zero_add]

theorem ne_zero_iff_exists_power {x : Byte} : x ≠ 0#8 ↔ ∃ i, i < 255 ∧ power p i = x := by
  refine ⟨exists_power_eq hp, ?_⟩
  rintro ⟨i, hi, rfl⟩
  exact power_ne_zero hp hi.le

end

/-! ## What the built tables hold (R104, R106) -/

/-- A canonical memory has no entry outside its space (R50). -/
theorem Memory.read_eq_none_of_wfIn {sp : TableSpace} {m : Memory} {i : Nat}
    (h : m.wfIn sp = true) (hi : sp.entries ≤ i) : m.read i = none := by
  simp only [Memory.wfIn, Bool.and_eq_true] at h
  exact Memory.read_eq_none_of_below h.2 hi

section
variable {s : State} (ht : TablesHold s)
include ht

theorem TablesHold.read_log_zero : s.log.read 0 = some 0xFF#8 := by
  rw [ht.log]
  exact read_logTable_zero ht.primitive

theorem TablesHold.read_log_power {i : Nat} (hi : i < 255) :
    s.log.read (power s.prim i).toNat = some (BitVec.ofNat 8 i) := by
  rw [ht.log]
  exact read_logTable_power ht.primitive hi

/-- LOG of a nonzero element is the number of the power it is. -/
theorem TablesHold.read_log_nonzero {x : Byte} (hx : x ≠ 0#8) :
    ∃ l, s.log.read x.toNat = some l ∧ l.toNat ≤ 254 ∧ power s.prim l.toNat = x := by
  obtain ⟨i, hi, rfl⟩ := exists_power_eq ht.primitive hx
  have hnum : (BitVec.ofNat 8 i).toNat = i := Nat.mod_eq_of_lt (by omega)
  exact ⟨BitVec.ofNat 8 i, ht.read_log_power hi, by omega, by rw [hnum]⟩

/-- Elements with one logarithm are one power. -/
theorem TablesHold.eq_of_read_log_eq {x y : Byte} (hx : x ≠ 0#8) (hy : y ≠ 0#8)
    (h : s.log.read x.toNat = s.log.read y.toNat) : x = y := by
  obtain ⟨l, hl, -, hxl⟩ := ht.read_log_nonzero hx
  obtain ⟨m, hm, -, hym⟩ := ht.read_log_nonzero hy
  obtain rfl : l = m := Option.some.inj (hl.symm.trans (h.trans hm))
  exact hxl.symm.trans hym

theorem TablesHold.exists_mtab_product (hm : s.mode = true) (a b : Byte) :
    ∃ v, mulLog s.log s.exp a b = .ok v ∧ s.mtab.read (256 * a.toNat + b.toNat) = some v := by
  obtain ⟨v, hv⟩ := ht.exists_mulLog_ok a b
  exact ⟨v, hv, ht.read_mtab hm hv⟩

theorem TablesHold.read_log_none {i : Nat} (hi : 256 ≤ i) : s.log.read i = none := by
  rw [ht.log]
  exact Memory.read_eq_none_of_wfIn (logTable_wfIn _) hi

theorem TablesHold.read_exp_none {i : Nat} (hi : 510 ≤ i) : s.exp.read i = none := by
  rw [ht.exp]
  exact read_expTable_high s.prim hi

theorem TablesHold.read_mtab_none (hm : s.mode = true) {i : Nat} (hi : 65536 ≤ i) :
    s.mtab.read i = none := by
  rw [ht.mtab hm]
  exact Memory.read_eq_none_of_wfIn (mtabTable_wfIn _ _) hi

end

theorem Ready.tablesHold {s : State} (h : Ready s) : TablesHold s := h.inv.tablesBuilt h.built

/-! ## BUILD while BUILT = 0 (R100, R206) -/

section
variable {s : State} (hb : s.built = false) {poly : Byte} (mt : Bool)
include hb

theorem exec_build_of_primitive (hp : isPrimitive (walk (polyOf poly)) = true) :
    exec (.build poly mt) s =
      .next ((s.commitTables poly mt (walk (polyOf poly))).respond 0x00#8) := by
  simp [exec, execBuild, hb, hp]

theorem exec_build_of_not_primitive (hp : ¬ isPrimitive (walk (polyOf poly)) = true) :
    exec (.build poly mt) s = .next (s.raise .nonPrimitive) := by
  simp [exec, execBuild, hb, hp]

end

/-! ## Reduction modulo p (R114, its second loop) -/

/-- One turn of the loop: bit `k` is cleared by adding p at its place. -/
def reduceBit (p : BitVec 9) (r : BitVec 15) (k : Nat) : BitVec 15 :=
  if r.getLsbD k then r ^^^ (p.setWidth 15 <<< (k - 8)) else r

/-- The remainder of a product, as a field element. -/
def residue (p : BitVec 9) (r : BitVec 15) : Byte := (reduceBy p r).setWidth 8

theorem reduceBy_eq_foldl (p : BitVec 9) (r : BitVec 15) :
    reduceBy p r = [14, 13, 12, 11, 10, 9, 8].foldl (reduceBit p) r := rfl

theorem clmul_eq_residue (p : BitVec 9) (a b : Byte) :
    clmul p a b = residue p (carrylessProduct a b) := rfl

section
variable {p : BitVec 9} {r q : BitVec 15} {k : Nat}

theorem reduceBit_of_not_getLsbD (h : r.getLsbD k = false) : reduceBit p r k = r := by
  simp [reduceBit, h]

theorem reduceBit_xor : reduceBit p (r ^^^ q) k = reduceBit p r k ^^^ reduceBit p q k := by
  have hcancel (x : BitVec 15) : (r ^^^ x) ^^^ (q ^^^ x) = r ^^^ q := by
    rw [BitVec.xor_comm q, BitVec.xor_assoc, ← BitVec.xor_assoc x, BitVec.xor_self,
      BitVec.zero_xor]
  simp only [reduceBit, BitVec.getLsbD_xor]
  cases r.getLsbD k with
  | false =>
    cases q.getLsbD k with
    | false => rfl
    | true => exact BitVec.xor_assoc r q _
  | true =>
    cases q.getLsbD k with
    | false =>
      change (r ^^^ q) ^^^ _ = (r ^^^ _) ^^^ q
      ac_rfl
    | true => exact (hcancel _).symm

theorem reduceBit_shiftLeft_one (hk : 8 ≤ k) (hk' : k < 14) :
    reduceBit p (r <<< 1) (k + 1) = reduceBit p r k <<< 1 := by
  have hbit : (r <<< 1).getLsbD (k + 1) = r.getLsbD k := by
    simp
    omega
  rw [reduceBit, reduceBit, hbit, Nat.sub_add_comm hk, BitVec.shiftLeft_add]
  split
  · rw [BitVec.shiftLeft_xor_distrib]
  · rfl

theorem residue_xor : residue p (r ^^^ q) = residue p r ^^^ residue p q := by
  simp [residue, reduceBy_eq_foldl, reduceBit_xor]

/-- A product of one byte is its own remainder. -/
theorem residue_setWidth (a : Byte) : residue p (a.setWidth 15) = a := by
  simp [residue, reduceBy_eq_foldl, reduceBit_of_not_getLsbD]

/-- Doubling a product doubles each turn's result, and leaves one turn more, for bit 8. -/
theorem reduceBy_shiftLeft_one (h : r.getLsbD 14 = false) :
    reduceBy p (r <<< 1) = reduceBit p (reduceBy p r <<< 1) 8 := by
  simp [reduceBy_eq_foldl, reduceBit_of_not_getLsbD h, reduceBit_shiftLeft_one]

/-- That turn is the walk step. -/
theorem setWidth_reduceBit_shiftLeft_one :
    (reduceBit p (r <<< 1) 8).setWidth 8 = walkStep p (r.setWidth 8) := by
  have hlow : (r <<< 1).setWidth 8 = ((r.setWidth 8).setWidth 9 <<< 1).setWidth 8 := by
    ext i hi
    simp
  have hp : (p.setWidth 15 <<< (8 - 8)).setWidth 8 = p.setWidth 8 := by simp
  have hbit : (r <<< 1).getLsbD 8 = ((r.setWidth 8).setWidth 9 <<< 1).getLsbD 8 := by simp
  simp only [reduceBit, walkStep, hbit]
  split
  · rw [BitVec.setWidth_xor, BitVec.setWidth_xor, hlow, hp]
  · exact hlow

/-- Doubling a product steps its remainder along the walk. -/
theorem residue_shiftLeft_one (h : r.getLsbD 14 = false) :
    residue p (r <<< 1) = walkStep p (residue p r) := by
  rw [residue, reduceBy_shiftLeft_one h, setWidth_reduceBit_shiftLeft_one, residue]

theorem residue_shiftLeft (a : Byte) {i : Nat} (hi : i < 8) :
    residue p (a.setWidth 15 <<< i) = (walkStep p)^[i] a := by
  induction i with
  | zero => simpa using residue_setWidth a
  | succ i ih =>
    have h14 : (a.setWidth 15 <<< i).getLsbD 14 = false := by
      simp [BitVec.getLsbD_of_ge a (14 - i) (by omega)]
    rw [BitVec.shiftLeft_add, residue_shiftLeft_one h14, ih (by omega),
      Function.iterate_succ_apply']

/-- The walk step is linear, as reduction is (R102). -/
theorem walkStep_xor (x y : Byte) : walkStep p (x ^^^ y) = walkStep p x ^^^ walkStep p y := by
  have hstep : ∀ z, walkStep p z = residue p (z.setWidth 15 <<< 1) := fun z =>
    (residue_shiftLeft z (by omega : 1 < 8)).symm
  rw [hstep, hstep, hstep, BitVec.setWidth_xor, BitVec.shiftLeft_xor_distrib, residue_xor]

end

/-! ## The carry-less product (R114, its first loop) -/

/-- The sum of the terms `f i` for the bits `i` that are set in `b`. -/
def sumOverBits {n : Nat} (b : Byte) (f : Nat → BitVec n) : BitVec n :=
  (List.range 8).foldl (fun r i => if b.getLsbD i then r ^^^ f i else r) 0#n

theorem carrylessProduct_eq_sumOverBits (a b : Byte) :
    carrylessProduct a b = sumOverBits b (fun i => a.setWidth 15 <<< i) := rfl

theorem sumOverBits_congr {n : Nat} {b : Byte} {f g : Nat → BitVec n} (h : ∀ i < 8, f i = g i) :
    sumOverBits b f = sumOverBits b g :=
  List.foldl_ext _ _ _ fun r i hi => by rw [h i (List.mem_range.mp hi)]

/-- A linear map goes inside the sum. -/
theorem map_sumOverBits {m n : Nat} {h : BitVec m → BitVec n}
    (hxor : ∀ x y, h (x ^^^ y) = h x ^^^ h y) (b : Byte) (f : Nat → BitVec m) :
    h (sumOverBits b f) = sumOverBits b (fun i => h (f i)) := by
  have hzero : h 0#m = 0#n := by simpa using hxor 0#m 0#m
  rw [sumOverBits, sumOverBits, ← hzero]
  refine (List.foldl_hom h fun r i => ?_).symm
  split
  · rw [hxor]
  · rfl

section
variable (p : BitVec 9)

/-- The reduced product is the sum of `a` stepped along the walk `i` times, for the bits `i` of `b`. -/
theorem clmul_eq_sumOverBits (a b : Byte) :
    clmul p a b = sumOverBits b (fun i => (walkStep p)^[i] a) := by
  rw [clmul_eq_residue, carrylessProduct_eq_sumOverBits, map_sumOverBits (fun _ _ => residue_xor)]
  exact sumOverBits_congr fun i hi => residue_shiftLeft a hi

/-- A step of the first factor is a step of the product. -/
theorem clmul_walkStep_left (a b : Byte) : clmul p (walkStep p a) b = walkStep p (clmul p a b) := by
  rw [clmul_eq_sumOverBits, clmul_eq_sumOverBits, map_sumOverBits walkStep_xor]
  simp only [← Function.iterate_succ_apply, ← Function.iterate_succ_apply']

theorem carrylessProduct_one_left : ∀ b : Byte, carrylessProduct 1#8 b = b.setWidth 15 := by
  decide

theorem clmul_one_left (b : Byte) : clmul p 1#8 b = b := by
  rw [clmul_eq_residue, carrylessProduct_one_left, residue_setWidth]

theorem clmul_zero_left (b : Byte) : clmul p 0#8 b = 0#8 := by
  simp [clmul_eq_sumOverBits, sumOverBits, Function.iterate_fixed (walkStep_zero p)]

theorem clmul_zero_right (a : Byte) : clmul p a 0#8 = 0#8 := by
  simp [clmul_eq_sumOverBits, sumOverBits]

/-- The reduced product of two powers of x is the power at the sum of their exponents. -/
theorem clmul_power (i j : Nat) : clmul p (power p i) (power p j) = power p (i + j) := by
  induction i with
  | zero => rw [Nat.zero_add]; exact clmul_one_left p _
  | succ i ih => rw [power_succ, clmul_walkStep_left, ih, Nat.succ_add, power_succ]

end

/-- While the tables hold, mul_log adds logarithms, and so multiplies (R114, R130). -/
theorem TablesHold.mulLog_eq_clmul {s : State} (ht : TablesHold s) (a b : Byte) :
    mulLog s.log s.exp a b = .ok (clmul s.prim a b) := by
  by_cases ha : a = 0#8
  · subst ha
    exact mulLog_ok.mpr (.inl ⟨.inl rfl, clmul_zero_left s.prim b⟩)
  by_cases hb : b = 0#8
  · subst hb
    exact mulLog_ok.mpr (.inl ⟨.inr rfl, clmul_zero_right s.prim a⟩)
  obtain ⟨la, hla, rfl, hra⟩ := ht.readLogarithm ha
  obtain ⟨lb, hlb, rfl, hrb⟩ := ht.readLogarithm hb
  rw [mulLog_of_logarithms ha hb hra hrb, ht.readEntry_exp (by omega),
    (power_periodic ht.primitive).map_mod_nat, clmul_power]

/-! ## The statements -/

/-- Settles O30: a primitive walk meets no element twice (`power_injective`) and every nonzero one
(`ne_zero_iff_exists_power`); which of the 256 walks are primitive is computed (`isPrimitive_iff_mem`). -/
theorem primitiveWalkVisitsEveryElementOnce : Obligations.PrimitiveWalkVisitsEveryElementOnce :=
  fun poly => ⟨isPrimitive_walk_iff,
    fun hp => ⟨fun _ _ => power_injective hp, fun _ => ne_zero_iff_exists_power hp⟩,
    isPrimitive_iff_mem poly⟩

/-- Settles O31: the committed tables hold what BUILT = 1 means (`tablesHold_commitTables`), so their
entries are those of `TablesHold`, and they are canonical, so there are no others. -/
theorem buildFillsTheTables : Obligations.BuildFillsTheTables := by
  refine fun poly mt => ⟨decode_encode (.build poly mt), fun s hb hp => ?_⟩
  have ht : TablesHold ((s.commitTables poly mt (walk (polyOf poly))).respond 0x00#8) :=
    (tablesHold_commitTables s mt hp).of_sameTables (sameTables_respond _ _)
  refine ⟨_, exec_build_of_primitive hb mt hp, rfl, rfl, rfl, rfl, rfl, rfl, rfl, rfl,
    ht.read_log_zero, fun i hi => ht.read_log_power hi, fun i hi => ⟨?_, ?_⟩,
    fun _ => ht.read_log_none, fun _ => ht.read_exp_none, ht.exists_mtab_product,
    fun hmt _ => ht.read_mtab_none hmt, ?_⟩
  · rw [ht.read_exp (by omega), Nat.mod_eq_of_lt hi]
  · rw [ht.read_exp (by omega), Nat.add_mod_left, Nat.mod_eq_of_lt hi]
  · rintro rfl
    rfl

/-- Settles O32: BUILD looks at BUILT, then at the check, which 16 polynomials pass
(`isPrimitive_iff_mem`). -/
theorem buildRaisesAlreadyBuiltOrNonPrimitive :
    Obligations.BuildRaisesAlreadyBuiltOrNonPrimitive := by
  refine fun poly mt s => ⟨fun hb => exec_build_of_built hb poly mt, fun hb hmem => ?_,
    fun hb hmem => ?_⟩
  · exact exec_build_of_not_primitive hb mt (hmem ∘ (isPrimitive_iff_mem poly).mp)
  · exact ⟨_, exec_build_of_primitive hb mt ((isPrimitive_iff_mem poly).mpr hmem), rfl, rfl⟩

/-- Settles O33: the entry of a nonzero element says which power it is (`TablesHold.read_log_nonzero`). -/
theorem logTableIsABijection : Obligations.LogTableIsABijection := fun _ hs =>
  have ht := hs.tablesHold
  ⟨ht.read_log_zero, fun _ => ht.read_log_nonzero, fun _ hi => ht.read_log_power (by omega),
    fun _ _ => ht.eq_of_read_log_eq⟩

/-- Settles O34: EXP repeats the 255 powers (`TablesHold.read_exp`), and none of them is 0. -/
theorem expTableHoldsThePowers : Obligations.ExpTableHoldsThePowers := by
  intro s hs
  have ht := hs.tablesHold
  refine ⟨fun i hi => ⟨ht.read_exp (by omega), power_ne_zero ht.primitive (by omega), ?_⟩,
    ht.read_exp (i := 0) (by omega), ht.read_exp (i := 255) (by omega), ?_, ?_⟩
  · rw [ht.read_exp (by omega), ht.read_exp (by omega), Nat.mod_mod]
  · rw [ht.read_exp (by omega), Nat.mod_eq_of_lt (by omega), power_one]
  · rw [ht.read_exp (by omega), Nat.add_mod_left 255 1, power_one]

/-- Settles O35: an element's LOG entry names the power it is, and EXP holds that power. -/
theorem tablesInvertEachOther : Obligations.TablesInvertEachOther := by
  intro s hs
  have ht := hs.tablesHold
  refine ⟨fun x hx => ?_, fun i hi => ?_, ht.read_log_zero, ht.exists_mtab_product⟩
  · obtain ⟨l, hl, hle, hpow⟩ := ht.read_log_nonzero hx
    exact ⟨l, hl, by rw [ht.read_exp (by omega), Nat.mod_eq_of_lt (by omega), hpow]⟩
  · exact ⟨_, ht.read_exp (by omega), ht.read_log_power (Nat.mod_lt i (by omega))⟩

/-- Settles O37: the log/exp product is the reduced carry-less one (`TablesHold.mulLog_eq_clmul`), and
MUL responds with it in both modes. -/
theorem mulIsTheReducedCarrylessProduct : Obligations.MulIsTheReducedCarrylessProduct :=
  fun _ a b hs =>
    have hmul := hs.tablesHold.mulLog_eq_clmul a b
    ⟨hmul, exec_mul_of_mulLog hs.built hs.tablesHold hmul⟩

/-- Settles O29: doubling reaches bit 8 exactly from 128 on, and the XOR with p clears it. -/
theorem walkStepDoublesAndReduces : Obligations.WalkStepDoublesAndReduces :=
  fun _ x hp => walkStep_toNat hp x

end Sys2Proof.Machine

/-! SUPPORT. The field laws of the reduced product; the responses of MUL, DIV, POW and INV to powers
of x, which are the nonzero elements; and the statements of 41_field_arithmetic.md. -/

namespace Sys2Proof.Machine

/-! ## The reduced product (R114) -/

/-- A bit set in both factors is clear in their sum, and its term cancels. -/
theorem sumOverBits_xor {n : Nat} (b c : Byte) (f : Nat → BitVec n) :
    sumOverBits (b ^^^ c) f = sumOverBits b f ^^^ sumOverBits c f := by
  rw [sumOverBits, ← BitVec.xor_zero (x := 0#n)]
  refine List.foldl_hom₂ _ (· ^^^ ·) _ _ _ _ _ fun r q i => ?_
  rw [BitVec.getLsbD_xor]
  cases b.getLsbD i with
  | false =>
    cases c.getLsbD i with
    | false => rfl
    | true => exact (BitVec.xor_assoc r q _).symm
  | true =>
    cases c.getLsbD i with
    | false =>
      change (r ^^^ f i) ^^^ q = (r ^^^ q) ^^^ f i
      ac_rfl
    | true =>
      calc (r ^^^ f i) ^^^ (q ^^^ f i) = (r ^^^ q) ^^^ (f i ^^^ f i) := by ac_rfl
        _ = r ^^^ q := by rw [BitVec.xor_self, BitVec.xor_zero]

theorem clmul_xor_right (p : BitVec 9) (a b c : Byte) :
    clmul p a (b ^^^ c) = clmul p a b ^^^ clmul p a c := by
  simp only [clmul_eq_sumOverBits, sumOverBits_xor]

section
variable {p : BitVec 9} (hp : isPrimitive (walk p) = true)
include hp

theorem eq_zero_or_power (x : Byte) : x = 0#8 ∨ ∃ i < 255, power p i = x := by
  by_cases hx : x = 0#8
  · exact .inl hx
  · exact .inr (exists_power_eq hp hx)

theorem clmul_comm (a b : Byte) : clmul p a b = clmul p b a := by
  obtain rfl | ⟨i, -, rfl⟩ := eq_zero_or_power hp a
  · rw [clmul_zero_left, clmul_zero_right]
  obtain rfl | ⟨j, -, rfl⟩ := eq_zero_or_power hp b
  · rw [clmul_zero_left, clmul_zero_right]
  rw [clmul_power, clmul_power, Nat.add_comm]

theorem clmul_assoc (a b c : Byte) : clmul p (clmul p a b) c = clmul p a (clmul p b c) := by
  obtain rfl | ⟨i, -, rfl⟩ := eq_zero_or_power hp a
  · simp only [clmul_zero_left]
  obtain rfl | ⟨j, -, rfl⟩ := eq_zero_or_power hp b
  · simp only [clmul_zero_left, clmul_zero_right]
  obtain rfl | ⟨k, -, rfl⟩ := eq_zero_or_power hp c
  · simp only [clmul_zero_right]
  simp only [clmul_power, Nat.add_assoc]

theorem clmul_one_right (a : Byte) : clmul p a 1#8 = a := by
  rw [clmul_comm hp, clmul_one_left]

/-- The powers at `i` and `255 - i` are inverse to each other (R136). -/
theorem clmul_power_sub {i : Nat} (hi : i ≤ 255) :
    clmul p (power p i) (power p (255 - i)) = 1#8 := by
  rw [clmul_power, Nat.add_sub_cancel' hi]
  exact (isPrimitive_walk_iff.mp hp).2

end

/-! ## Reserved bits (R80, R207) -/

section
variable {w : CommandWord} {op : BitVec 4}

theorem raisesIllegal_of_decode_error {why : Illegal} (h : decode w = .error why) (s : State) :
    RaisesIllegal w s :=
  executeWord_of_illegal h s

/-- The opcodes of format R (R72). -/
theorem raisesIllegal_of_reservedR (hop : op ∈ [0x1#4, 0x2#4, 0x3#4, 0x4#4, 0x5#4])
    (hw : w.extractLsb' 28 4 = op) (hres : w.extractLsb' 16 12 ≠ 0#12) (s : State) :
    RaisesIllegal w s := by
  have hw' : fieldOp w = op := hw
  have hres' : reservedR w = false := by simpa [reservedR] using hres
  refine raisesIllegal_of_decode_error (why := .reservedBits op) ?_ s
  fin_cases hop <;> simp [decode, whenReservedZero, hw', hres']

/-- The opcodes of format U (R73). -/
theorem raisesIllegal_of_reservedU (hop : op ∈ [0x6#4, 0x7#4])
    (hw : w.extractLsb' 28 4 = op)
    (hres : w.extractLsb' 16 12 ≠ 0#12 ∨ w.extractLsb' 0 8 ≠ 0#8) (s : State) :
    RaisesIllegal w s := by
  have hw' : fieldOp w = op := hw
  have hres' : reservedU w = false := by simpa [reservedU, ← not_and_or] using hres
  refine raisesIllegal_of_decode_error (why := .reservedBits op) ?_ s
  fin_cases hop <;> simp [decode, whenReservedZero, hw', hres']

end

theorem raises_notBuilt {i : Instr} {s : State} (hi : (opcodeRow i.mnemonic).needs = .yes)
    (hb : s.built = false) : Raises i s .notBuilt :=
  exec_of_needs_built hi hb

/-! ## The entry of EXP that a command answers with (R130, R134-R136) -/

section
variable {s : State} (hb : s.built = true) {a b : Byte} {la lb : Nat} (ha : a ≠ 0#8)
  (hla : readLogarithm s.log a = .ok la)
include hb ha hla

theorem exec_mul_eq_answer (hm : s.mode = false) (hb0 : b ≠ 0#8)
    (hlb : readLogarithm s.log b = .ok lb) :
    exec (.mul a b) s = answer (readEntry .exp s.exp (la + lb)) s := by
  rw [exec_mul_of_not_mode hb hm, mulLog_of_logarithms ha hb0 hla hlb]

theorem exec_div_eq_answer (hb0 : b ≠ 0#8) (hlb : readLogarithm s.log b = .ok lb) :
    exec (.div a b) s = answer (readEntry .exp s.exp (la + 255 - lb)) s := by
  rw [exec_div_of_nonzero hb ha hb0, divLog_of_logarithms hla hlb]

theorem exec_pow_eq_answer (n : Byte) :
    exec (.pow a n) s = answer (readEntry .exp s.exp (la * n.toNat % 255)) s := by
  rw [exec_pow_of_nonzero hb ha, powLog_of_logarithm n hla]

theorem exec_inv_eq_answer : exec (.inv a) s = answer (readEntry .exp s.exp (255 - la)) s := by
  rw [exec_inv_of_nonzero hb ha, invLog_of_logarithm hla]

end

/-! ## Responses of the arithmetic commands -/

theorem responds_add (s : State) (a b : Byte) : Responds (.add a b) s (a ^^^ b) := rfl

theorem responds_add_of_eq (s : State) {a b v : Byte} (h : a ^^^ b = v) : Responds (.add a b) s v :=
  h ▸ responds_add s a b

theorem responds_sub (s : State) (a b : Byte) : Responds (.sub a b) s (a ^^^ b) := rfl

/-- A state has one next state, which is no raise where it is a response (R9, R201). -/
theorem Raises.not_responds {i : Instr} {s : State} {e : Exc} {v : Byte} (h : Raises i s e) :
    ¬ Responds i s v := fun hv => by
  have hresp := congrArg State.responses (Host.Outcome.next.inj (h.symm.trans hv))
  simp at hresp

section
variable {s : State} (hs : Ready s)
include hs

theorem Ready.primitive : isPrimitive (walk s.prim) = true := hs.tablesHold.primitive

theorem Ready.power_mod (i : Nat) : power s.prim (i % 255) = power s.prim i :=
  (power_periodic hs.primitive).map_mod_nat i

theorem Ready.power_ne_zero {i : Nat} (hi : i < 255) : power s.prim i ≠ 0#8 :=
  Machine.power_ne_zero hs.primitive hi.le

theorem Ready.read_exp {i : Nat} (hi : i < 510) : s.exp.read i = some (power s.prim i) := by
  rw [hs.tablesHold.read_exp hi, hs.power_mod]

theorem Ready.readLogarithm_power {i : Nat} (hi : i < 255) :
    readLogarithm s.log (power s.prim i) = .ok i :=
  readLogarithm_ok.mpr ⟨_, hs.tablesHold.read_log_power hi, decodeLog_storeLog (by omega)⟩

theorem Ready.responds_of_exec_eq_answer {i : Instr} {k : Nat} (hk : k < 510)
    (h : exec i s = answer (readEntry .exp s.exp k) s) : Responds i s (power s.prim k) :=
  h.trans (congrArg (answer · s) (readEntry_ok.mpr (hs.read_exp hk)))

theorem Ready.responds_mul (a b : Byte) : Responds (.mul a b) s (clmul s.prim a b) :=
  (mulIsTheReducedCarrylessProduct s a b hs).2

theorem Ready.responds_mul_of_eq {a b v : Byte} (h : clmul s.prim a b = v) :
    Responds (.mul a b) s v :=
  h ▸ hs.responds_mul a b

theorem Ready.responds_mul_power (i j : Nat) :
    Responds (.mul (power s.prim i) (power s.prim j)) s (power s.prim (i + j)) :=
  hs.responds_mul_of_eq (clmul_power s.prim i j)

theorem Ready.responds_div_power {i j : Nat} (hi : i < 255) (hj : j < 255) :
    Responds (.div (power s.prim i) (power s.prim j)) s (power s.prim (i + 255 - j)) :=
  hs.responds_of_exec_eq_answer (by omega)
    (exec_div_eq_answer hs.built (hs.power_ne_zero hi) (hs.readLogarithm_power hi)
      (hs.power_ne_zero hj) (hs.readLogarithm_power hj))

theorem Ready.responds_pow_power {i : Nat} (hi : i < 255) (n : Byte) :
    Responds (.pow (power s.prim i) n) s (power s.prim (i * n.toNat)) :=
  hs.power_mod (i * n.toNat) ▸ hs.responds_of_exec_eq_answer (by omega)
    (exec_pow_eq_answer hs.built (hs.power_ne_zero hi) (hs.readLogarithm_power hi) n)

theorem Ready.responds_inv_power {i : Nat} (hi : i < 255) :
    Responds (.inv (power s.prim i)) s (power s.prim (255 - i)) :=
  hs.responds_of_exec_eq_answer (by omega)
    (exec_inv_eq_answer hs.built (hs.power_ne_zero hi) (hs.readLogarithm_power hi))

/-- A nonzero element has an inverse, INV responds with it, and DIV multiplies by it (R139). -/
theorem Ready.exists_inverse {b : Byte} (hb : b ≠ 0#8) :
    ∃ w, clmul s.prim b w = 1#8 ∧ Responds (.inv b) s w ∧
      ∀ a, Responds (.div a b) s (clmul s.prim a w) := by
  obtain ⟨j, hj, rfl⟩ := exists_power_eq hs.primitive hb
  refine ⟨power s.prim (255 - j), clmul_power_sub hs.primitive hj.le, hs.responds_inv_power hj,
    fun a => ?_⟩
  obtain rfl | ⟨i, hi, rfl⟩ := eq_zero_or_power hs.primitive a
  · rw [clmul_zero_left]
    exact exec_div_zero_left hs.built _
  · rw [clmul_power, ← Nat.add_sub_assoc hj.le]
    exact hs.responds_div_power hi hj

/-- DIV undoes MUL (R139). -/
theorem Ready.responds_div_clmul (a : Byte) {b : Byte} (hb : b ≠ 0#8) :
    Responds (.div (clmul s.prim a b) b) s a := by
  obtain ⟨w, hw, -, hdiv⟩ := hs.exists_inverse hb
  simpa only [clmul_assoc hs.primitive, hw, clmul_one_right hs.primitive] using
    hdiv (clmul s.prim a b)

/-- MUL undoes DIV (R139). -/
theorem Ready.exists_quotient (a : Byte) {b : Byte} (hb : b ≠ 0#8) :
    ∃ q, Responds (.div a b) s q ∧ Responds (.mul q b) s a := by
  obtain ⟨w, hw, -, hdiv⟩ := hs.exists_inverse hb
  have hqb : clmul s.prim (clmul s.prim a w) b = a := by
    rw [clmul_assoc hs.primitive, clmul_comm hs.primitive w, hw, clmul_one_right hs.primitive]
  exact ⟨clmul s.prim a w, hdiv a, hs.responds_mul_of_eq hqb⟩

theorem Ready.exists_responds_inv {a : Byte} (ha : a ≠ 0#8) :
    ∃ x, Responds (.inv a) s x ∧ Responds (.mul a x) s 1#8 := by
  obtain ⟨w, hw, hinv, -⟩ := hs.exists_inverse ha
  exact ⟨w, hinv, hs.responds_mul_of_eq hw⟩

theorem Ready.responds_inv_one : Responds (.inv 1#8) s 1#8 := by
  have hinv := hs.responds_inv_power (i := 0) (by omega)
  rwa [Nat.sub_zero, (isPrimitive_walk_iff.mp hs.primitive).2] at hinv

/-- The exponents 1, 0 and 255 (R141). -/
theorem Ready.responds_pow_special {a : Byte} (ha : a ≠ 0#8) :
    Responds (.pow a 1#8) s a ∧ Responds (.pow a 0#8) s 1#8 ∧ Responds (.pow a 255#8) s 1#8 := by
  obtain ⟨i, hi, rfl⟩ := exists_power_eq hs.primitive ha
  have h255 : power s.prim (i * 255) = 1#8 := (power_periodic hs.primitive).nat_mul_eq i
  exact ⟨by simpa using hs.responds_pow_power hi 1#8, hs.responds_pow_power hi 0#8,
    h255 ▸ hs.responds_pow_power hi 255#8⟩

/-- LOGR and EXPR read one entry of each table, which invert each other (R141). -/
theorem Ready.exists_logarithm_responds {a : Byte} (ha : a ≠ 0#8) :
    ∃ l, s.log.read a.toNat = some l ∧ s.exp.read l.toNat = some a ∧
      Responds (.logr a) s l ∧ Responds (.expr (l.setWidth 9)) s a := by
  obtain ⟨l, hl, hle, rfl⟩ := hs.tablesHold.read_log_nonzero ha
  have hidx : (l.setWidth 9).toNat = l.toNat := BitVec.toNat_setWidth_of_le (by omega)
  refine ⟨l, hl, hs.read_exp (by omega), ?_, hs.responds_of_exec_eq_answer (by omega) ?_⟩
  · rw [Responds, exec_logr_of_built hs.built, readEntry_ok.mpr hl]
    rfl
  · rw [exec_expr_of_built hs.built (by omega), hidx]

end

/-! ## The statements -/

/-- Settles O36: the entry of a nonzero operand names the power it is, and MUL adds the numbers
(`Ready.responds_mul_power`); MTAB holds the same products. -/
theorem mulRespondsFromTheTables : Obligations.MulRespondsFromTheTables := by
  refine ⟨fun _ => raisesIllegal_of_reservedR (by decide), fun a b => ⟨decode_encode (.mul a b),
    fun s => ⟨raises_notBuilt rfl, fun hs hm => ?_, fun hs _ h0 => ?_, fun hs _ ha hb => ?_⟩⟩⟩
  · obtain ⟨v, hv, hread⟩ := hs.tablesHold.exists_mtab_product hm a b
    exact ⟨v, hread, exec_mul_of_mulLog hs.built hs.tablesHold hv⟩
  · exact exec_mul_of_mulLog hs.built hs.tablesHold (mulLog_ok.mpr (.inl ⟨h0, rfl⟩))
  · obtain ⟨la, hla, hla', rfl⟩ := hs.tablesHold.read_log_nonzero ha
    obtain ⟨lb, hlb, hlb', rfl⟩ := hs.tablesHold.read_log_nonzero hb
    exact ⟨la, lb, _, hla, hlb, hs.read_exp (by omega), hs.responds_mul_power _ _⟩

/-- Settles O38: in both modes MUL responds with the reduced product for PRIM
(`Ready.responds_mul`). -/
theorem multiplyPathsAgree : Obligations.MultiplyPathsAgree :=
  fun _ _ a b hs ht hprim _ _ =>
    ⟨_, hs.responds_mul a b, hprim ▸ ht.responds_mul a b⟩

/-- Settles O39: DIV looks at BUILT, the dividend, the divisor, and then subtracts logarithms
(`Ready.responds_div_power`). -/
theorem divRespondsOrRaises : Obligations.DivRespondsOrRaises := by
  refine ⟨fun _ => raisesIllegal_of_reservedR (by decide), fun a b => ⟨decode_encode (.div a b),
    fun s => ⟨raises_notBuilt rfl, ?_, ?_, fun hs ha hb => ?_⟩⟩⟩
  · rintro hb rfl
    exact exec_div_zero_left hb b
  · rintro hb ha rfl
    exact exec_div_zero_right hb ha
  · obtain ⟨la, hla, hla', rfl⟩ := hs.tablesHold.read_log_nonzero ha
    obtain ⟨lb, hlb, hlb', rfl⟩ := hs.tablesHold.read_log_nonzero hb
    exact ⟨la, lb, _, hla, hlb, hs.read_exp (by omega),
      hs.responds_div_power (by omega) (by omega)⟩

/-- Settles O40: POW looks at BUILT, the base, and then multiplies its logarithm
(`Ready.responds_pow_power`). -/
theorem powRespondsOrRaises : Obligations.PowRespondsOrRaises := by
  refine ⟨fun _ => raisesIllegal_of_reservedR (by decide), fun a n => ⟨decode_encode (.pow a n),
    fun s => ⟨raises_notBuilt rfl, ?_, fun hs ha => ?_⟩⟩⟩
  · rintro hb rfl
    exact exec_pow_zero hb n
  · obtain ⟨la, hla, hla', rfl⟩ := hs.tablesHold.read_log_nonzero ha
    exact ⟨la, _, hla, (hs.read_exp (by omega)).trans (congrArg some (hs.power_mod _)),
      hs.responds_pow_power (by omega) n⟩

/-- Settles O41: INV looks at BUILT, the operand, and then negates its logarithm
(`Ready.responds_inv_power`). -/
theorem invRespondsOrRaises : Obligations.InvRespondsOrRaises := by
  refine ⟨fun _ => raisesIllegal_of_reservedU (by decide), fun a => ⟨decode_encode (.inv a),
    fun s => ⟨raises_notBuilt rfl, ?_, fun hs ha => ?_⟩⟩⟩
  · rintro hb rfl
    exact exec_inv_zero hb
  · obtain ⟨la, hla, hla', rfl⟩ := hs.tablesHold.read_log_nonzero ha
    exact ⟨la, _, hla, hs.read_exp (by omega), hs.responds_inv_power (by omega)⟩

/-- Settles O42: each command answers with one entry of EXP, whatever EXP holds, at an index made
from logarithms below 255. -/
theorem indicesStayInTheExpTable : Obligations.IndicesStayInTheExpTable := by
  intro s a b n hs ha hb
  obtain ⟨la, hla, -, hra⟩ := hs.tablesHold.readLogarithm ha
  obtain ⟨lb, hlb, -, hrb⟩ := hs.tablesHold.readLogarithm hb
  have hpow : la * n.toNat ≤ 254 * 255 := Nat.mul_le_mul (by omega) (by omega)
  refine ⟨la, lb, hasLogarithm_iff.mpr hra, hasLogarithm_iff.mpr hrb, fun m =>
    ⟨mulLog_of_logarithms ha hb hra hrb,
      fun hm => exec_mul_eq_answer (s := { s with exp := m }) hs.built ha hra hm hb hrb,
      exec_div_eq_answer (s := { s with exp := m }) hs.built ha hra hb hrb,
      exec_pow_eq_answer (s := { s with exp := m }) hs.built ha hra n,
      exec_inv_eq_answer (s := { s with exp := m }) hs.built ha hra⟩, ?_⟩
  simp only [mulIndex_eq, divIndex_eq, powIndex_eq, invIndex_eq, powExponent_eq, true_and]
  omega

/-- Settles O43: DIV multiplies by what INV responds with (`Ready.exists_inverse`), and looks for a
zero dividend first. -/
theorem divIsMulByTheInverse : Obligations.DivIsMulByTheInverse := by
  refine fun s a b hs => ⟨fun hb => ?_, exec_div_zero_left hs.built 0#8, exec_inv_zero hs.built⟩
  obtain ⟨w, -, hinv, hdiv⟩ := hs.exists_inverse hb
  exact ⟨w, _, hinv, hs.responds_mul a w, hdiv a⟩

/-- Settles O44: ADD responds with the XOR and MUL with the reduced product, so the laws are those
of `^^^` and `clmul`. -/
theorem fieldLawsHold : Obligations.FieldLawsHold := by
  intro s a b c hs
  have hp := hs.primitive
  exact ⟨⟨_, responds_add s a b, responds_add_of_eq s (BitVec.xor_comm b a)⟩,
    ⟨_, _, _, responds_add s a b, responds_add s _ c, responds_add s b c,
      responds_add_of_eq s (BitVec.xor_assoc a b c).symm⟩,
    responds_add_of_eq s BitVec.xor_zero, responds_add_of_eq s BitVec.xor_self,
    ⟨_, hs.responds_mul a b, hs.responds_mul_of_eq (clmul_comm hp b a)⟩,
    ⟨_, _, _, hs.responds_mul a b, hs.responds_mul _ c, hs.responds_mul b c,
      hs.responds_mul_of_eq (clmul_assoc hp a b c).symm⟩,
    hs.responds_mul_of_eq (clmul_one_right hp a), hs.responds_mul_of_eq (clmul_zero_left s.prim a),
    ⟨_, _, _, _, responds_add s b c, hs.responds_mul a _, hs.responds_mul a b,
      hs.responds_mul a c, responds_add_of_eq s (clmul_xor_right s.prim a b c).symm⟩,
    hs.exists_responds_inv⟩

/-- Settles O45: inverses, quotients, powers and logarithms by their lemmas for `Ready` states, and
of the four vectors only the product of 3 and 7 is computed. -/
theorem documentedPropertiesHold : Obligations.DocumentedPropertiesHold := by
  intro s a b hs
  have hzero : Responds (.div 0#8 0#8) s 0#8 := exec_div_zero_left hs.built 0#8
  have hcancel : (a ^^^ b) ^^^ b = a := by simp
  refine ⟨hs.exists_responds_inv,
    ⟨_, responds_add s a b, responds_sub s a b, responds_add_of_eq s hcancel⟩,
    hs.exists_quotient a, ⟨?_, ?_⟩, hzero, hs.responds_pow_special, hs.exists_logarithm_responds,
    fun t ht hprim => multiplyPathsAgree s t a b hs ht hprim.symm, fun hprim => ?_⟩
  · rintro hraise rfl
    exact hraise.not_responds hzero
  · exact exec_div_zero_right hs.built
  · have h37 : clmul s.prim 3#8 7#8 = 9#8 := by rw [hprim]; decide
    have h73 : clmul s.prim 7#8 3#8 = 9#8 := by rw [clmul_comm hs.primitive, h37]
    exact ⟨hs.responds_mul_of_eq h37, hs.responds_mul_of_eq (clmul_zero_left s.prim b),
      h73 ▸ hs.responds_div_clmul 7#8 (by decide), hs.responds_inv_one⟩

/-- Settles O46: for `a` the power at `l`, POW(a, k) is the power at `l * k`, and MUL adds `l`. -/
theorem powersCompose : Obligations.PowersCompose := by
  intro s a hs ha
  obtain ⟨l, hl, hle, rfl⟩ := hs.tablesHold.read_log_nonzero ha
  have hpow := hs.responds_pow_power (i := l.toNat) (by omega)
  refine ⟨⟨fun k => power s.prim (l.toNat * k), rfl, fun k _ => ?_, hpow⟩, fun n m =>
    ⟨l, _, _, _, hl, hpow n, hpow m, hs.responds_mul_power _ _, ?_⟩⟩
  · have hsucc : l.toNat + l.toNat * k = l.toNat * (k + 1) := by rw [Nat.mul_succ, Nat.add_comm]
    exact hs.responds_mul_of_eq ((clmul_power s.prim _ _).trans (congrArg (power s.prim) hsucc))
  · rw [hs.read_exp (by omega), hs.power_mod, Nat.mul_add]

/-- Settles O27: ADD and SUB read nothing of the state. -/
theorem addAndSubRespondWithXor : Obligations.AddAndSubRespondWithXor := by
  refine ⟨fun w hw => ?_, fun a b => ⟨decode_encode (.add a b), decode_encode (.sub a b),
    fun s => ⟨responds_add s a b, responds_sub s a b⟩⟩⟩
  obtain hw | hw := hw
  · exact raisesIllegal_of_reservedR (by decide) hw
  · exact raisesIllegal_of_reservedR (by decide) hw

end Sys2Proof.Machine

/-! SUPPORT. What LOGR, EXPR and CSRR respond with, and the statements of 42_observation.md. -/

namespace Sys2Proof.Machine

/-! ## Reserved bits of formats X and S (R74, R76, R80, R207) -/

section
variable {w : CommandWord}

/-- EXPR is the one command of format X. -/
theorem raisesIllegal_of_reservedX (hw : w.extractLsb' 28 4 = 0x8#4)
    (hres : w.extractLsb' 9 19 ≠ 0#19) (s : State) : RaisesIllegal w s := by
  have hw' : fieldOp w = 0x8#4 := hw
  have hres' : reservedX w = false := by simpa [reservedX] using hres
  exact raisesIllegal_of_decode_error (why := .reservedBits 0x8#4)
    (by simp [decode, whenReservedZero, hw', hres']) s

/-- CSRR is the one command of format S. -/
theorem raisesIllegal_of_reservedS (hw : w.extractLsb' 28 4 = 0xA#4)
    (hres : w.extractLsb' 2 26 ≠ 0#26) (s : State) : RaisesIllegal w s := by
  have hw' : fieldOp w = 0xA#4 := hw
  have hres' : reservedS w = false := by simpa [reservedS] using hres
  exact raisesIllegal_of_decode_error (why := .reservedBits 0xA#4)
    (by simp [decode, whenReservedZero, hw', hres']) s

end

/-! ## The sentinel in LOG (R105) -/

/-- The entry of a nonzero element is its logarithm, at most 254. -/
theorem TablesHold.read_log_sentinel_iff {s : State} (ht : TablesHold s) {x : Byte} :
    s.log.read x.toNat = some 0xFF#8 ↔ x = 0#8 := by
  refine ⟨fun h => ?_, by rintro rfl; exact ht.read_log_zero⟩
  by_contra hx
  obtain ⟨l, hl, hle, -⟩ := ht.read_log_nonzero hx
  obtain rfl : l = 0xFF#8 := Option.some.inj (hl.symm.trans h)
  exact absurd hle (by decide)

/-! ## Responses of the reading commands (R170-R172) -/

section
variable {s : State}

theorem responds_of_exec_eq_answer_readEntry {i : Instr} {sp : TableSpace} {m : Memory} {k : Nat}
    {v : Byte} (h : exec i s = answer (readEntry sp m k) s) (hv : m.read k = some v) :
    Responds i s v :=
  h.trans (congrArg (answer · s) (readEntry_ok.mpr hv))

theorem responds_logr_of_read (hb : s.built = true) {a v : Byte}
    (hv : s.log.read a.toNat = some v) : Responds (.logr a) s v :=
  responds_of_exec_eq_answer_readEntry (exec_logr_of_built hb a) hv

theorem responds_expr_of_read (hb : s.built = true) {idx : BitVec 9} (hi : idx.toNat ≤ 509)
    {v : Byte} (hv : s.exp.read idx.toNat = some v) : Responds (.expr idx) s v :=
  responds_of_exec_eq_answer_readEntry (exec_expr_of_built hb hi) hv

end

/-- The register is read from the state before the command, which then writes STATUS. -/
theorem responds_csrr (s : State) (sel : BitVec 2) : Responds (.csrr sel) s (s.readControl sel) :=
  rfl

/-! ## The statements -/

/-- Settles O47: while BUILT = 1 every LOG entry has a value, which LOGR responds with, and the
sentinel stands at 0 only (`TablesHold.read_log_sentinel_iff`). -/
theorem logrReadsTheStoredByte : Obligations.LogrReadsTheStoredByte := by
  refine ⟨fun _ => raisesIllegal_of_reservedU (by decide), fun a => ⟨decode_encode (.logr a),
    fun s => ⟨raises_notBuilt rfl, fun hs => ?_⟩⟩⟩
  obtain ⟨v, hv⟩ := hs.tablesHold.read_log a
  have hsentinel : v = 0xFF#8 ↔ a = 0#8 := by
    rw [← hs.tablesHold.read_log_sentinel_iff, hv, Option.some.injEq]
  exact ⟨v, hv, responds_logr_of_read hs.built hv, hsentinel⟩

/-- Settles O48: EXPR looks at BUILT, then at the index, and every entry up to 509 has a value
(`Ready.read_exp`). -/
theorem exprReadsTheEntryOrRaises : Obligations.ExprReadsTheEntryOrRaises := by
  refine ⟨fun _ => raisesIllegal_of_reservedX, fun idx => ⟨decode_encode (.expr idx),
    fun s => ⟨raises_notBuilt rfl, fun hb => exec_expr_of_high hb, fun hs hi => ?_⟩⟩⟩
  have hv := hs.read_exp (i := idx.toNat) (by omega)
  exact ⟨_, hv, responds_expr_of_read hs.built hi hv⟩

/-- Settles O28: the four select numbers name the four registers of R172, in every state. -/
theorem csrrReadsTheControlRegisters : Obligations.CsrrReadsTheControlRegisters :=
  ⟨fun _ => raisesIllegal_of_reservedS, fun sel => decode_encode (.csrr sel), fun s =>
    ⟨responds_csrr s 0#2, responds_csrr s 1#2, responds_csrr s 2#2, responds_csrr s 3#2⟩⟩

end Sys2Proof.Machine

/-! SUPPORT. What a step does with a word in flight and with nothing to do, what an exception response
says of its command and of the next state, and the statements of 60_exceptions.md. -/

namespace Sys2Proof.Machine

/-! ## The step with a word in flight, and with nothing to do (R220, R240) -/

theorem step_of_inFlight {s : State} {w : CommandWord} (hw : s.inFlight = some w)
    (hr : s.inputs.head? ≠ some .reset) : step s = executeWord w s := by
  match hi : s.inputs with
  | [] => simp [step, advance, hi, hw]
  | .command _ :: _ => simp [step, advance, hi, hw]
  | .reset :: _ => exact absurd (congrArg List.head? hi) hr

theorem step_of_idle {s : State} (hidle : s.inFlight = none) (hi : s.inputs = []) :
    step s = .next s := by
  simp [step, advance, hidle, hi]

/-- Reset needs no invariant, a word completes under it (`StateInv.exists_executeWord_next`), and
accepting a word keeps it. -/
theorem StateInv.exists_step_next {s : State} (h : StateInv s) : ∃ t, step s = .next t := by
  match hi : s.inputs, hf : s.inFlight with
  | .reset :: _, _ => exact ⟨_, step_of_reset hi⟩
  | [], some w | .command _ :: _, some w =>
    rw [step_of_inFlight hf (by simp [hi])]
    exact h.exists_executeWord_next w
  | .command w :: rest, none =>
    rw [step_of_presented hf hi]
    exact (h.accept w rest).exists_executeWord_next w
  | [], none => exact ⟨s, step_of_idle hf hi⟩

/-! ## ERRS keeps its bits (R27) -/

theorem errsOf_getLsbD_of_set {bits : BitVec 7} {k : Nat} (h : bits.getLsbD k = true)
    (rs : List Response) : (errsOf bits rs).getLsbD k = true := by
  induction rs generalizing bits with
  | nil => exact h
  | cons r rs ih =>
    cases r with
    | ok v => exact ih h
    | err e => exact ih (by simp [h])

/-! ## What an exception response says (R201, R209) -/

/-- A command whose response is an exception has raised that one, which is in the command's row. -/
theorem eq_raise_of_exec_err {i : Instr} {s t : State} {e : Exc} (h : exec i s = .next t)
    (hr : t.responses = s.responses ++ [.err e]) : e ∈ mayRaise i.mnemonic ∧ t = s.raise e := by
  obtain ⟨v, rfl⟩ | ⟨f, hf, rfl⟩ | ⟨poly, mt, -, -, -, rfl⟩ := exec_next_cases h
  · simp at hr
  · obtain rfl : f = e := by simpa using hr
    exact ⟨hf, rfl⟩
  · simp at hr

theorem eq_raise_of_executeWord_err {w : CommandWord} {s t : State} {e : Exc}
    (h : executeWord w s = .next t) (hr : t.responses = s.responses ++ [.err e]) :
    t = s.raise e := by
  obtain ⟨i, -, hi⟩ | ⟨why, -, rfl⟩ := executeWord_next_cases h
  · exact (eq_raise_of_exec_err hi hr).2
  · obtain rfl : Exc.illegalCommand = e := by simpa using hr
    rfl

/-- An exception outside a command's row is never its response. -/
theorem exec_responses_ne_err {i : Instr} {s t : State} {e : Exc} (he : e ∉ mayRaise i.mnemonic)
    (h : exec i s = .next t) : t.responses ≠ s.responses ++ [.err e] :=
  fun hr => he (eq_raise_of_exec_err h hr).1

/-! ## The rows of R209 -/

theorem illegalCommand_not_mem_mayRaise (m : Mnemonic) : .illegalCommand ∉ mayRaise m := by
  cases m <;> decide

/-- NOT_BUILT is in the rows of the commands that need BUILT, and in no other (R78, R204). -/
theorem notBuilt_mem_mayRaise_iff {m : Mnemonic} :
    .notBuilt ∈ mayRaise m ↔ (opcodeRow m).needs = .yes := by
  cases m <;> decide

/-! ## Every exception of a row is raised from reset, or right after a BUILD (R209) -/

/-- The state in which BUILD of the default polynomial, run from reset, ends. -/
def defaultBuilt : State :=
  (State.reset.commitTables Config.defaultPoly false
    (walk (polyOf Config.defaultPoly))).respond 0x00#8

theorem exec_build_default :
    exec (.build Config.defaultPoly false) State.reset = .next defaultBuilt :=
  exec_build_of_primitive rfl false ((isPrimitive_iff_mem _).mpr (by decide))

theorem defaultBuilt_built : defaultBuilt.built = true := rfl

/-- The polynomial x^8, of POLY = 0, fails the check (R108). -/
theorem not_isPrimitive_zero : ¬ isPrimitive (walk (polyOf 0x00#8)) = true := by
  rw [isPrimitive_iff_mem]
  decide

theorem exists_raises_of_mem_mayRaise {m : Mnemonic} {e : Exc} (h : e ∈ mayRaise m) :
    ∃ i s, i.mnemonic = m ∧ Raises i s e := by
  cases m with
  | add | sub | csrr => cases h
  | mul =>
    obtain rfl := List.mem_singleton.mp h
    exact ⟨.mul 0 0, .reset, rfl, raises_notBuilt rfl rfl⟩
  | logr =>
    obtain rfl := List.mem_singleton.mp h
    exact ⟨.logr 0, .reset, rfl, raises_notBuilt rfl rfl⟩
  | div =>
    obtain rfl | rfl := List.mem_pair.mp h
    · exact ⟨.div 1 0, .reset, rfl, raises_notBuilt rfl rfl⟩
    · exact ⟨.div 1 0, defaultBuilt, rfl, exec_div_zero_right defaultBuilt_built (by decide)⟩
  | pow =>
    obtain rfl | rfl := List.mem_pair.mp h
    · exact ⟨.pow 0 0, .reset, rfl, raises_notBuilt rfl rfl⟩
    · exact ⟨.pow 0 0, defaultBuilt, rfl, exec_pow_zero defaultBuilt_built 0⟩
  | inv =>
    obtain rfl | rfl := List.mem_pair.mp h
    · exact ⟨.inv 0, .reset, rfl, raises_notBuilt rfl rfl⟩
    · exact ⟨.inv 0, defaultBuilt, rfl, exec_inv_zero defaultBuilt_built⟩
  | expr =>
    obtain rfl | rfl := List.mem_pair.mp h
    · exact ⟨.expr 510, .reset, rfl, raises_notBuilt rfl rfl⟩
    · exact ⟨.expr 510, defaultBuilt, rfl, exec_expr_of_high defaultBuilt_built (by decide)⟩
  | build =>
    obtain rfl | rfl := List.mem_pair.mp h
    · exact ⟨.build 0 false, defaultBuilt, rfl, exec_build_of_built defaultBuilt_built 0 false⟩
    · exact ⟨.build 0 false, .reset, rfl,
        exec_build_of_not_primitive rfl false not_isPrimitive_zero⟩

/-! ## Illegal words of every opcode (R207, R209) -/

/-- The word of a row with CMD[27] set, which every format reserves (R72-R76). -/
def wordWithBit27 (m : Mnemonic) : CommandWord := (opcodeRow m).pattern ||| 0x08000000#32

theorem wordWithBit27_opcode (m : Mnemonic) :
    wordWithBit27 m &&& 0xF0000000#32 = (opcodeRow m).pattern := by
  cases m <;> rfl

theorem wordWithBit27_reserved (m : Mnemonic) :
    wordWithBit27 m &&& (opcodeRow m).mask ≠ (opcodeRow m).pattern := by
  cases m <;> decide

/-- An opcode of no row, or a reserved bit of the opcode's row, makes the word illegal (R79, R80). -/
theorem exists_decode_error_of_reserved {w : CommandWord}
    (h : (∀ m, w &&& 0xF0000000#32 ≠ (opcodeRow m).pattern) ∨
      ∃ m, w &&& 0xF0000000#32 = (opcodeRow m).pattern ∧
        w &&& (opcodeRow m).mask ≠ (opcodeRow m).pattern) :
    ∃ why, decode w = .error why := by
  refine decode_error_iff.mpr fun n => ?_
  obtain hop | hres := h
  · exact Bool.eq_false_iff.mpr fun hn => hop n (opcode_eq_of_covers hn)
  · exact not_covers_of_reserved (.inr (.inr hres))

/-! ## The statements -/

/-- Settles O17, case by case of what the block finds at the port (`StateInv.exists_step_next`). -/
theorem noStepStops : Obligations.NoStepStops :=
  fun _ h => h.exists_step_next

/-- Settles O11: a reserved encoding does not decode (`exists_decode_error_of_reserved`), every other
word is in a row and so decodes (`covers_iff`), and no row of R209 has ILLEGAL_COMMAND. -/
theorem illegalCommandExactlyForReservedEncodings :
    Obligations.IllegalCommandExactlyForReservedEncodings := by
  refine fun w => ⟨fun h s => ?_, fun ⟨m, _, hm⟩ => ?_⟩
  · obtain ⟨why, hwhy⟩ := exists_decode_error_of_reserved h
    exact raisesIllegal_of_decode_error hwhy s
  · obtain ⟨i, hi, -⟩ := covers_iff.mp (beq_iff_eq.mpr hm)
    exact ⟨i, hi, fun s => ⟨by simp [executeWord, hi],
      fun t => exec_responses_ne_err (illegalCommand_not_mem_mayRaise _)⟩⟩

/-- Settles O20: without a reset a step only adds the bits of its responses (`step_answers`). -/
theorem errsOnlyGrow : Obligations.ErrsOnlyGrow := by
  intro s t hr h k hk
  obtain ⟨rs, hrs⟩ := step_answers hr h
  rw [State.errs_getLsbD] at hk ⊢
  rw [hrs.errBits]
  exact errsOf_getLsbD_of_set hk rs

/-- Settles O21: the next state is the raise of that exception (`eq_raise_of_executeWord_err`). -/
theorem raisingWritesStatusAndErrsOnly : Obligations.RaisingWritesStatusAndErrsOnly :=
  fun _ _ _ _ h hr => ⟨eq_raise_of_executeWord_err h hr, rfl⟩

/-- Settles O22: a command raises only what its row lists (`eq_raise_of_exec_err`), all of that
(`exists_raises_of_mem_mayRaise`), and CMD[27] makes a word of each opcode illegal. -/
theorem eachCommandRaisesItsOwnExceptions : Obligations.EachCommandRaisesItsOwnExceptions := by
  refine ⟨fun i s t e h hr => (eq_raise_of_exec_err h hr).1,
    fun m e => exists_raises_of_mem_mayRaise,
    fun m => ⟨wordWithBit27 m, wordWithBit27_opcode m, fun s => ?_⟩⟩
  obtain ⟨why, hwhy⟩ := exists_decode_error_of_reserved
    (.inr ⟨m, wordWithBit27_opcode m, wordWithBit27_reserved m⟩)
  exact ⟨_, executeWord_of_illegal hwhy s, s.raise_responses _⟩

/-- Settles O9, by the last arm of the step (`step_of_idle`). -/
theorem idleBlockWaits : Obligations.IdleBlockWaits :=
  fun _ => step_of_idle

/-- Settles O23: the codes are the definition's, and a raise sets the bit of its code
(`State.raise_errs_getLsbD`). -/
theorem exceptionCodes : Obligations.ExceptionCodes :=
  ⟨rfl, rfl, rfl, rfl, rfl, rfl, rfl, fun e s => s.raise_errs_getLsbD e⟩

/-- Settles O49: the six commands need BUILT (`raises_notBuilt`), the other four do not, so NOT_BUILT is
not in their rows (`notBuilt_mem_mayRaise_iff`). -/
theorem notBuiltBeforeAnyOperandCheck : Obligations.NotBuiltBeforeAnyOperandCheck := by
  refine ⟨fun s hb a b idx => ⟨raises_notBuilt rfl hb, raises_notBuilt rfl hb,
    raises_notBuilt rfl hb, raises_notBuilt rfl hb, raises_notBuilt rfl hb,
    raises_notBuilt rfl hb⟩, fun i s t hi => exec_responses_ne_err fun hmem => ?_⟩
  have hneeds : ∀ m ∈ [Mnemonic.add, .sub, .csrr, .build], (opcodeRow m).needs ≠ .yes := by decide
  exact hneeds _ hi (notBuilt_mem_mayRaise_iff.mp hmem)

end Sys2Proof.Machine

/-! SUPPORT. What a word that decodes runs as, what a reset leaves of PRIM and CTRL, and the statements of
70_reset_and_hazards.md. -/

namespace Sys2Proof.Machine

/-! ## A word that decodes runs as its instruction (R81) -/

theorem executeWord_of_decode_ok {w : CommandWord} {i : Instr} (h : decode w = .ok i) (s : State) :
    executeWord w s = exec i s := by
  simp [executeWord, h]

/-! ## What an assertion of reset leaves (R230, R31) -/

@[simp] theorem State.assertReset_prim (s : State) (rest : List HostInput) :
    (s.assertReset rest).prim = 0x11D#9 := by
  simp [State.prim, polyOf]

@[simp] theorem State.assertReset_ctrl (s : State) (rest : List HostInput) :
    (s.assertReset rest).ctrl = 0x00#8 := by
  simp [State.ctrl]

@[simp] theorem State.assertReset_busy (s : State) (rest : List HostInput) :
    (s.assertReset rest).busy = false := rfl

/-! ## The open parameters (R243) -/

theorem one_le_latCmd : 1 ≤ Config.latCmd := Nat.le_add_left 1 _

theorem one_le_latBuild (mt : Bool) : 1 ≤ Config.latBuild mt := Nat.le_add_left 1 _

/-! ## The statements -/

/-- Settles O8: the step is that of the word in flight (`step_of_inFlight`), and completing a word leaves
what is presented and ends it (`executeWord_inputs`, `executeWord_inFlight`). -/
theorem busyBlockHoldsThePresentedCommand : Obligations.BusyBlockHoldsThePresentedCommand := by
  intro s w hw hr
  have hstep : step s = executeWord w s := step_of_inFlight hw hr
  refine ⟨hstep, fun i hi => hstep.trans (executeWord_of_decode_ok hi s), fun t ht => ?_⟩
  rw [hstep] at ht
  exact ⟨executeWord_inputs ht, executeWord_inFlight ht⟩

/-- Settles O7: the step is that of the accepted word (`step_of_presented`). -/
theorem stepRunsThePresentedCommand : Obligations.StepRunsThePresentedCommand := by
  intro s w rest hidle hi
  have hstep : step s = executeWord w (s.accept w rest) := step_of_presented hidle hi
  exact ⟨hstep, fun i hd => hstep.trans (executeWord_of_decode_ok hd _)⟩

/-- Settles O14: a reset comes first in its step (`step_of_reset`), and a block with BUILT = 0 answers
LOGR with NOT_BUILT (`raises_notBuilt`). -/
theorem assertedResetAbandonsEverything : Obligations.AssertedResetAbandonsEverything := by
  intro s rest hi
  have hlogr (a : Byte) : Raises (.logr a) (s.assertReset rest) .notBuilt :=
    raises_notBuilt rfl (s.assertReset_built rest)
  exact ⟨s.assertReset rest, step_of_reset hi, by simp [hlogr]⟩

/-- Settles O51: BUILD has one latency and every other command the other, each one step and more. -/
theorem latenciesAreAtLeastOneStep : Obligations.LatenciesAreAtLeastOneStep := by
  intro i
  cases i with
  | build _ mt => exact one_le_latBuild mt
  | add | sub | mul | div | pow | inv | logr | expr | csrr => exact one_le_latCmd

end Sys2Proof.Machine
